-- ==== Sys2Proof/Word.lean ====
section
/-! DEFINITION. The bit-vector types of the spec: 8-bit registers, memory cells and immediates, 16-bit opcodes and
addresses, 12-bit address fields and 4-bit register fields (00_scope.md R8, R10, R11; 30_encoding.md R61 to R65). -/

namespace Sys2Proof

/-- A register, a memory cell or an immediate: an unsigned value 0..255 (00_scope.md R8, R11). -/
abbrev Byte := BitVec 8

/-- A 16-bit instruction word (30_encoding.md R60). -/
abbrev Opcode := BitVec 16

/-- The program counter and a call-stack entry: 16 bits unsigned (10_state.md R24, decision D1, log entry 7; R28). -/
abbrev Addr := BitVec 16

/-- The `addr` field of an opcode: an unsigned 12-bit absolute byte address (30_encoding.md R65). -/
abbrev AddrField := BitVec 12

/-- A register field `x` or `y` of an opcode: an unsigned 4-bit register number (30_encoding.md R61, R62), so that no
register access can be out of range (10_state.md R23). -/
abbrev RegIndex := BitVec 4

end Sys2Proof
end

