-- ==== Sys2Proof/Syntax.lean ====
section
/-! DEFINITION. The fifteen instructions of the opcode map (30_encoding.md R66), the assembler lines of R74 and the
program image of 70_reset_and_hazards.md R204. -/

namespace Sys2Proof

/-- The closed set of instruction variants, each carrying its own typed operands (30_encoding.md R66, R76). Every
operand has exactly the width of its field (R61 to R65). -/
inductive Instr where
  | halt
  | clearScreen
  | ret
  | jump (addr : AddrField)
  | call (addr : AddrField)
  | skipEqualImmediate (x : RegIndex) (kk : Byte)
  | skipNotEqualImmediate (x : RegIndex) (kk : Byte)
  | skipEqualRegisters (x y : RegIndex)
  | loadImmediate (x : RegIndex) (kk : Byte)
  | addImmediate (x : RegIndex) (kk : Byte)
  | move (x y : RegIndex)
  | orRegisters (x y : RegIndex)
  | andRegisters (x y : RegIndex)
  | xorRegisters (x y : RegIndex)
  | addRegisters (x y : RegIndex)
  deriving DecidableEq, Repr

/-- The names of R74's assembly syntax, and `.word`. -/
inductive AsmName where
  | halt | clearScreen | ret | jump | call
  | skipEqualImmediate | skipNotEqualImmediate | skipEqualRegisters
  | loadImmediate | addImmediate | move | orRegisters | andRegisters | xorRegisters | addRegisters
  | word
  deriving DecidableEq, Repr

/-- One line `Name(op1, op2)` of R74, its operands as the numbers that were written (decision D14,
log entry 21). -/
structure AsmLine where
  name : AsmName
  operands : List Nat
  deriving DecidableEq, Repr

/-- What an assembled line places in memory: an instruction, or a raw 16-bit word (`.word 0xNNNN`, R74). -/
inductive Line where
  | instr (i : Instr)
  | word (w : Opcode)
  deriving DecidableEq, Repr

/-- A program image: 16-bit opcodes, densely packed, from a base address the driver chooses (R9, R204). -/
structure Image where
  base : Nat
  lines : List Line
  deriving DecidableEq, Repr

/-- The assembly line of an instruction (R74). -/
def Instr.asm : Instr → AsmLine
  | .halt => ⟨.halt, []⟩
  | .clearScreen => ⟨.clearScreen, []⟩
  | .ret => ⟨.ret, []⟩
  | .jump addr => ⟨.jump, [addr.toNat]⟩
  | .call addr => ⟨.call, [addr.toNat]⟩
  | .skipEqualImmediate x kk => ⟨.skipEqualImmediate, [x.toNat, kk.toNat]⟩
  | .skipNotEqualImmediate x kk => ⟨.skipNotEqualImmediate, [x.toNat, kk.toNat]⟩
  | .skipEqualRegisters x y => ⟨.skipEqualRegisters, [x.toNat, y.toNat]⟩
  | .loadImmediate x kk => ⟨.loadImmediate, [x.toNat, kk.toNat]⟩
  | .addImmediate x kk => ⟨.addImmediate, [x.toNat, kk.toNat]⟩
  | .move x y => ⟨.move, [x.toNat, y.toNat]⟩
  | .orRegisters x y => ⟨.orRegisters, [x.toNat, y.toNat]⟩
  | .andRegisters x y => ⟨.andRegisters, [x.toNat, y.toNat]⟩
  | .xorRegisters x y => ⟨.xorRegisters, [x.toNat, y.toNat]⟩
  | .addRegisters x y => ⟨.addRegisters, [x.toNat, y.toNat]⟩

end Sys2Proof
end

