-- ==== Sys2Proof/Config.lean ====
section
/-! DEFINITION. The implementation parameters of 00_scope.md R8 and the values the spec leaves open
(93_implementation_defined.md K7). -/

namespace Sys2Proof.Config

/-- NREG: the number of general registers (R8). -/
abbrev numRegs : Nat := 16

/-- MEM_SIZE: the number of memory bytes, addresses 0x000 to 0xFFF (R8, R40). -/
abbrev memSize : Nat := 4096

/-- The highest memory address, 0xFFF (R8, R40). -/
abbrev lastAddr : Nat := 4095

/-- STACK_DEPTH: the number of call-stack slots (R8, R28). -/
abbrev stackDepth : Nat := 16

/-- The largest unsigned value of a register, memory cell or immediate (R8, R11). -/
abbrev maxByte : Nat := 255

/-- The largest value of the 16-bit program counter (R8, R208). -/
abbrev maxPc : Nat := 65535

/-- FREE VALUE (K7, decision D15, log entry 1). The `addr` part of a fault record whose reason records no address.
The argument is the number of draws made before this one. -/
opaque freeFaultAddr : Nat → Addr

/-- FREE VALUE (K7, decision D15, log entry 1). The `opcode` part of a fault record whose reason records no opcode.
The argument is the number of draws made before this one. -/
opaque freeFaultOpcode : Nat → Opcode

end Sys2Proof.Config
end

