-- ==== Sys2Proof/WellFormed.lean ====
section
/-! DEFINITION. The checks on syntax: an assembly line has its instruction's operands, each within its field
(30_encoding.md R60 to R65, R74), and a program image lies inside memory (20_memory.md R40, 70_reset_and_hazards.md
R204). An `Instr` holds bit vectors of its fields' widths, so the operand checks can refuse only a line of numbers. -/

namespace Sys2Proof

/-- A register operand is 0..15 (R61, R62). -/
def regInRange (n : Nat) : Bool := decide (n < Config.numRegs)

/-- A byte operand is 0..255 (R63). -/
def byteInRange (n : Nat) : Bool := decide (n ≤ Config.maxByte)

/-- An address operand is 0..4095 (R65). -/
def addrInRange (n : Nat) : Bool := decide (n ≤ Config.lastAddr)

/-- A `.word` operand is a 16-bit word (R74). -/
def wordInRange (n : Nat) : Bool := decide (n < 65536)

/-- The line has the operands of its format, N, A, XK or XY (R60), each within its field. -/
def AsmLine.wellFormed : AsmLine → Bool
  | ⟨.halt, []⟩ => true
  | ⟨.clearScreen, []⟩ => true
  | ⟨.ret, []⟩ => true
  | ⟨.jump, [addr]⟩ => addrInRange addr
  | ⟨.call, [addr]⟩ => addrInRange addr
  | ⟨.skipEqualImmediate, [x, kk]⟩ => regInRange x && byteInRange kk
  | ⟨.skipNotEqualImmediate, [x, kk]⟩ => regInRange x && byteInRange kk
  | ⟨.skipEqualRegisters, [x, y]⟩ => regInRange x && regInRange y
  | ⟨.loadImmediate, [x, kk]⟩ => regInRange x && byteInRange kk
  | ⟨.addImmediate, [x, kk]⟩ => regInRange x && byteInRange kk
  | ⟨.move, [x, y]⟩ => regInRange x && regInRange y
  | ⟨.orRegisters, [x, y]⟩ => regInRange x && regInRange y
  | ⟨.andRegisters, [x, y]⟩ => regInRange x && regInRange y
  | ⟨.xorRegisters, [x, y]⟩ => regInRange x && regInRange y
  | ⟨.addRegisters, [x, y]⟩ => regInRange x && regInRange y
  | ⟨.word, [w]⟩ => wordInRange w
  | _ => false

/-- An instruction is well formed when its assembly line is. -/
def Instr.wellFormed (i : Instr) : Bool := i.asm.wellFormed

/-- Every byte of the image has an address in memory (R40, R204). -/
def Image.wellFormed (img : Image) : Bool :=
  decide (img.base + 2 * img.lines.length ≤ Config.memSize)

end Sys2Proof
end

