-- ==== Sys2Proof/Decode.lean ====
section
/-! DEFINITION. Decoding (30_encoding.md R60 to R77), a pure and total function of the 16-bit word, and the encoder
written from the same map. -/

namespace Sys2Proof

/-- What decoding a word gives: one of the fifteen instructions, or the rejection UnimplementedOpcode(opcode) (R76). -/
inductive Decoded where
  | instr (i : Instr)
  | unimplementedOpcode (opcode : Opcode)
  deriving DecidableEq, Repr

/-- What decoding a list of bytes gives: the result of its first word and the bytes after it, or the rejection of a
list too short to hold a word. -/
inductive DecodedBytes where
  | instr (i : Instr) (rest : List Byte)
  | unimplementedOpcode (opcode : Opcode) (rest : List Byte)
  | truncated
  deriving DecidableEq, Repr

/-- `x = opcode[11:8]` (R61). -/
def fieldX (w : Opcode) : RegIndex := w.extractLsb' 8 4

/-- `y = opcode[7:4]` (R62). -/
def fieldY (w : Opcode) : RegIndex := w.extractLsb' 4 4

/-- `kk = opcode[7:0]` (R63). -/
def fieldKK (w : Opcode) : Byte := w.extractLsb' 0 8

/-- `n = opcode[3:0]`, the op_minor selector (R64). -/
def fieldN (w : Opcode) : BitVec 4 := w.extractLsb' 0 4

/-- `addr = opcode[11:0]` (R65). -/
def fieldAddr (w : Opcode) : AddrField := w.extractLsb' 0 12

/-- `(opcode & mask) == match` (R66). -/
def selects (mask pattern w : Opcode) : Bool := (w &&& mask) == pattern

/-- The opcode map of R66, row by row in the table's order, so the exact control codes are matched first.
The words 0x5xyN with N ≠ 0 are UnimplementedOpcode (R68, decision D3, log entry 6). -/
def decode (w : Opcode) : Decoded :=
  if selects 0xFFFF#16 0x0000#16 w then .instr .halt
  else if selects 0xFFFF#16 0x00E0#16 w then .instr .clearScreen
  else if selects 0xFFFF#16 0x00EE#16 w then .instr .ret
  else if selects 0xF000#16 0x1000#16 w then .instr (.jump (fieldAddr w))
  else if selects 0xF000#16 0x2000#16 w then .instr (.call (fieldAddr w))
  else if selects 0xF000#16 0x3000#16 w then .instr (.skipEqualImmediate (fieldX w) (fieldKK w))
  else if selects 0xF000#16 0x4000#16 w then .instr (.skipNotEqualImmediate (fieldX w) (fieldKK w))
  else if selects 0xF00F#16 0x5000#16 w then .instr (.skipEqualRegisters (fieldX w) (fieldY w))
  else if selects 0xF000#16 0x6000#16 w then .instr (.loadImmediate (fieldX w) (fieldKK w))
  else if selects 0xF000#16 0x7000#16 w then .instr (.addImmediate (fieldX w) (fieldKK w))
  else if selects 0xF00F#16 0x8000#16 w then .instr (.move (fieldX w) (fieldY w))
  else if selects 0xF00F#16 0x8001#16 w then .instr (.orRegisters (fieldX w) (fieldY w))
  else if selects 0xF00F#16 0x8002#16 w then .instr (.andRegisters (fieldX w) (fieldY w))
  else if selects 0xF00F#16 0x8003#16 w then .instr (.xorRegisters (fieldX w) (fieldY w))
  else if selects 0xF00F#16 0x8004#16 w then .instr (.addRegisters (fieldX w) (fieldY w))
  else .unimplementedOpcode w

/-- The word whose high byte stands at the lower address: `high_byte << 8 | low_byte` (20_memory.md R43). -/
def bigEndian (hi lo : Byte) : Opcode := hi ++ lo

/-- The high byte of a word, the one at the lower address (R43). -/
def highByte (w : Opcode) : Byte := w.extractLsb' 8 8

/-- The low byte of a word, the one at the higher address (R43). -/
def lowByte (w : Opcode) : Byte := w.extractLsb' 0 8

/-- A word as its bytes stand in memory, the first at the lowest address (R43, R204). -/
def wordBytes (w : Opcode) : List Byte := [highByte w, lowByte w]

/-- Decoding a list of bytes, the first at the lowest address: every instruction is exactly two bytes (R60, R73). -/
def decodeBytes : List Byte → DecodedBytes
  | hi :: lo :: rest =>
    match decode (bigEndian hi lo) with
    | .instr i => .instr i rest
    | .unimplementedOpcode w => .unimplementedOpcode w rest
  | _ => .truncated

/-- The word of an instruction, from the patterns of R66. -/
def encode : Instr → Opcode
  | .halt => 0x0000#16
  | .clearScreen => 0x00E0#16
  | .ret => 0x00EE#16
  | .jump addr => 0x1#4 ++ addr
  | .call addr => 0x2#4 ++ addr
  | .skipEqualImmediate x kk => 0x3#4 ++ x ++ kk
  | .skipNotEqualImmediate x kk => 0x4#4 ++ x ++ kk
  | .skipEqualRegisters x y => 0x5#4 ++ x ++ y ++ 0x0#4
  | .loadImmediate x kk => 0x6#4 ++ x ++ kk
  | .addImmediate x kk => 0x7#4 ++ x ++ kk
  | .move x y => 0x8#4 ++ x ++ y ++ 0x0#4
  | .orRegisters x y => 0x8#4 ++ x ++ y ++ 0x1#4
  | .andRegisters x y => 0x8#4 ++ x ++ y ++ 0x2#4
  | .xorRegisters x y => 0x8#4 ++ x ++ y ++ 0x3#4
  | .addRegisters x y => 0x8#4 ++ x ++ y ++ 0x4#4

/-- An instruction's bytes, the first at the lowest address (R43, R60). -/
def encodeBytes (i : Instr) : List Byte := wordBytes (encode i)

/-- The word a line places: its instruction's, or the raw word (R74). -/
def Line.encoded : Line → Opcode
  | .instr i => encode i
  | .word w => w

/-- The instruction or raw word of an assembly line; none where the line is not well formed (R74). -/
def AsmLine.assemble (l : AsmLine) : Option Line :=
  if l.wellFormed then
    match l with
    | ⟨.halt, []⟩ => some (.instr .halt)
    | ⟨.clearScreen, []⟩ => some (.instr .clearScreen)
    | ⟨.ret, []⟩ => some (.instr .ret)
    | ⟨.jump, [addr]⟩ => some (.instr (.jump (BitVec.ofNat 12 addr)))
    | ⟨.call, [addr]⟩ => some (.instr (.call (BitVec.ofNat 12 addr)))
    | ⟨.skipEqualImmediate, [x, kk]⟩ =>
      some (.instr (.skipEqualImmediate (BitVec.ofNat 4 x) (BitVec.ofNat 8 kk)))
    | ⟨.skipNotEqualImmediate, [x, kk]⟩ =>
      some (.instr (.skipNotEqualImmediate (BitVec.ofNat 4 x) (BitVec.ofNat 8 kk)))
    | ⟨.skipEqualRegisters, [x, y]⟩ =>
      some (.instr (.skipEqualRegisters (BitVec.ofNat 4 x) (BitVec.ofNat 4 y)))
    | ⟨.loadImmediate, [x, kk]⟩ => some (.instr (.loadImmediate (BitVec.ofNat 4 x) (BitVec.ofNat 8 kk)))
    | ⟨.addImmediate, [x, kk]⟩ => some (.instr (.addImmediate (BitVec.ofNat 4 x) (BitVec.ofNat 8 kk)))
    | ⟨.move, [x, y]⟩ => some (.instr (.move (BitVec.ofNat 4 x) (BitVec.ofNat 4 y)))
    | ⟨.orRegisters, [x, y]⟩ => some (.instr (.orRegisters (BitVec.ofNat 4 x) (BitVec.ofNat 4 y)))
    | ⟨.andRegisters, [x, y]⟩ => some (.instr (.andRegisters (BitVec.ofNat 4 x) (BitVec.ofNat 4 y)))
    | ⟨.xorRegisters, [x, y]⟩ => some (.instr (.xorRegisters (BitVec.ofNat 4 x) (BitVec.ofNat 4 y)))
    | ⟨.addRegisters, [x, y]⟩ => some (.instr (.addRegisters (BitVec.ofNat 4 x) (BitVec.ofNat 4 y)))
    | ⟨.word, [w]⟩ => some (.word (BitVec.ofNat 16 w))
    | _ => none
  else none

/-- The word of a table row whose bits, numbered as opcode_table.json numbers them, are the low `nbits` bits of `w`;
every instruction bit above them is 0. -/
def tableWord (nbits w : Nat) : Opcode := BitVec.ofNat 16 (w % 2 ^ nbits)

/-- The instruction the decoder reads from a table word, laid out as memory holds it (R43). -/
def decodeTableWord (nbits w : Nat) : Option Instr :=
  match decodeBytes (wordBytes (tableWord nbits w)) with
  | .instr i _ => some i
  | .unimplementedOpcode _ _ => none
  | .truncated => none

end Sys2Proof
end

