-- ==== Sys2Proof/Machine/State.lean ====
section
/-! DEFINITION. The block's whole state (10_state.md), plain data, its value after Initialize (R35), and the reasons a
step or a host operation stops. -/

namespace Sys2Proof.Machine

/-- The run status (R31, R87): the source's Running, Halted and Faulted, and the spec's Idle (decision D18,
log entry 16). -/
inductive Status where
  | idle
  | running
  | halted
  | faulted
  deriving DecidableEq, Repr

/-- The four fatal conditions (60_exceptions.md R170). -/
inductive FaultReason where
  | outOfBounds
  | stackOverflow
  | stackUnderflow
  | unimplementedOpcode
  deriving DecidableEq, Repr

/-- The fault record (R32): the reason, the fetch address an OutOfBounds records, and the word an UnimplementedOpcode
records. A part its reason does not record holds a free value (K7, decision D15, log entry 1). -/
structure FaultRecord where
  reason : FaultReason
  addr : Addr
  opcode : Opcode
  deriving DecidableEq, Repr

/-- Memory as pairs of an address and a byte, addresses strictly rising, no pair equal to what an unlisted address reads
as (the canonical form is Memory.wf in Machine/Ops.lean; log entry 2). -/
abbrev Memory := List Host.Cell

/-- CPU State (R20 to R30), the run status (R31), the fault record (R32) and one field of the model's own. -/
structure State where
  /-- V[0..15]; V[15] is VF, the carry flag (R20, R22, R27). -/
  regs : Vector Byte 16
  /-- The program counter (R24). -/
  pc : Addr
  /-- M[0..4095] (R30). -/
  mem : Memory
  /-- S[0..15], a register file apart from memory (R28). -/
  stack : Vector Addr 16
  /-- The count of occupied stack slots, 0..16 (R29; log entry 19). -/
  sp : Fin 17
  /-- The run status (R31). -/
  status : Status
  /-- The fault record, valid only when status is Faulted; none is R35's "not valid" (R32). -/
  fault : Option FaultRecord
  /-- The MODEL's own field: how many free values have been drawn (log entry 1). -/
  freeDraws : Nat
  deriving DecidableEq, Repr

/-- Why no next state exists. -/
inductive Fault where
  /-- Raised by `step` when the status is not Running: no Step is defined from Idle, Halted or Faulted
  (40_fetch_execute.md R86, R91; K15 'stuck'; log entry 3). Safe: the engine does nothing there either. -/
  | notRunning (status : Status)
  deriving DecidableEq, Repr

/-- Why an operation is not carried out. -/
inductive Refusal where
  /-- An arm of `exec` that has no meaning. No arm answers it. Safe. -/
  | notModelled (mnemonic : String)
  /-- Raised by a host write while status is Running (70_reset_and_hazards.md R206 to R208, R212; K12). Safe. -/
  | hostWriteWhileRunning
  /-- Raised by HostWriteMem for an address above 4095 (R206, decision D10, log entry 14; K11). Safe. -/
  | hostAddressOutOfRange (a : Nat)
  /-- Raised by HostWriteReg for an index above 15 (R207, decision D10, log entry 14; K11). Safe. -/
  | hostRegisterOutOfRange (i : Nat)
  /-- Raised by a host write whose value does not fit (R206 to R208, decision D10, log entry 14; K11). Safe. -/
  | hostValueOutOfRange (v : Nat)
  /-- Raised by the loading of a program image that does not lie inside memory (R40, R204). Safe. -/
  | imageOutsideMemory
  deriving DecidableEq, Repr

/-- The state after Initialize (R35, R200): every field of CPU State zero, status Idle, no fault (decision D18,
log entry 16). The draw counter's 0 is the model's (log entry 1). -/
def State.reset : State where
  regs := Vector.replicate 16 0#8
  pc := 0#16
  mem := []
  stack := Vector.replicate 16 0#16
  sp := 0
  status := .idle
  fault := none
  freeDraws := 0

end Sys2Proof.Machine
end

