-- ==== Sys2Proof/Machine/Ops.lean ====
section
/-! DEFINITION. The named operations over memory, registers, program counter, call stack and run status
(00_scope.md R12, R13), instruction fetch (40_fetch_execute.md R80) and fault entry (60_exceptions.md R175). -/

namespace Sys2Proof.Machine

/-- What an address that memory does not list reads as: Initialize zeroes every cell (10_state.md R35). -/
def unlistedByte : Byte := 0#8

/-- M[a]: the byte at an address (R12). -/
def Memory.byteAt : Memory → Nat → Byte
  | [], _ => unlistedByte
  | (k, v) :: rest, a => if k = a then v else Memory.byteAt rest a

/-- `M[a] <- v`, keeping the canonical form (R13). -/
def Memory.write : Memory → Nat → Byte → Memory
  | [], a, v => if v = unlistedByte then [] else [(a, v)]
  | (k, w) :: rest, a, v =>
    if a < k then (if v = unlistedByte then (k, w) :: rest else (a, v) :: (k, w) :: rest)
    else if a = k then (if v = unlistedByte then rest else (a, v) :: rest)
    else (k, w) :: Memory.write rest a v

/-- The canonical form from address `lo` on. -/
def Memory.wfFrom : Nat → Memory → Bool
  | _, [] => true
  | lo, (k, v) :: rest =>
    decide (lo ≤ k) && decide (k < Config.memSize) && decide (v ≠ unlistedByte) && Memory.wfFrom (k + 1) rest

/-- The canonical form: addresses strictly rising and inside the 4096 bytes, and no cell equal to what an unlisted
address reads as, so equal memories are equal lists (R40). -/
def Memory.wf (m : Memory) : Bool := Memory.wfFrom 0 m

/-- MemRead(a, 1): the byte at `a`, or nothing when `a` is above 4095 (R13). An unlisted address reads as 0 (log entry
2). -/
def memRead (m : Memory) (a : Nat) : Option Byte :=
  if a ≤ Config.lastAddr then some (Memory.byteAt m a) else none

/-- A 16-bit word stored big-endian at `a` and `a + 1` (20_memory.md R43, 70_reset_and_hazards.md R204). -/
def storeWord (m : Memory) (a : Nat) (w : Opcode) : Memory :=
  Memory.write (Memory.write m a (highByte w)) (a + 1) (lowByte w)

/-- V[i] (R12). -/
def State.reg (s : State) (i : RegIndex) : Byte := s.regs[i.toNat]

/-- `V[i] <- v` (R12). No register is hard-wired (R20). -/
def State.setReg (s : State) (i : RegIndex) (v : Byte) : State :=
  { s with regs := s.regs.set i.toNat v }

/-- The number of the flag register VF (R22). -/
def vf : RegIndex := 0xF#4

/-- S[j] (R12). -/
def State.slot (s : State) (j : Fin 16) : Addr := s.stack[j.val]

/-- `pc <- target` (R12). -/
def State.setPc (s : State) (target : Addr) : State := { s with pc := target }

/-- `pc <- pc + 2`, on the program counter's 16 bits: the pre-advance (R82), and the second advance of a taken skip
(R123). -/
def State.advancePc (s : State) : State := { s with pc := s.pc + 2#16 }

/-- `S[sp] <- pc; sp <- sp + 1`; nothing when all sixteen slots are occupied (R104). -/
def State.pushPc (s : State) : Option State :=
  if h : s.sp.val = 16 then none
  else some { s with stack := s.stack.set s.sp.val s.pc (by omega), sp := ⟨s.sp.val + 1, by omega⟩ }

/-- `sp <- sp - 1; pc <- S[sp]`; nothing when no slot is occupied. The slot keeps its value (R102, R34). -/
def State.popPc (s : State) : Option State :=
  if h : s.sp.val = 0 then none
  else some { s with sp := ⟨s.sp.val - 1, by omega⟩, pc := s.stack[s.sp.val - 1]'(by omega) }

/-- `halt`: `status <- Halted`; the fault record is not written (R13, R100, R187). -/
def State.halt (s : State) : State := { s with status := .halted }

/-- Fault entry, `raise Fault(reason, info)` (R13, R175): status and the fault record are written and the step ends. No
handler runs, nothing is saved and no write is undone (R176). A part of the record that `reason` does not record is a
free value (K7; log entry 1). There is no return from a fault (R179). -/
def State.raise (s : State) (reason : FaultReason) (addr : Option Addr) (opcode : Option Opcode) : State :=
  { s with
    status := .faulted
    fault := some {
      reason := reason
      addr := addr.getD (Config.freeFaultAddr s.freeDraws)
      opcode := opcode.getD (Config.freeFaultOpcode s.freeDraws) }
    freeDraws := s.freeDraws + 1 }

/-- OutOfBounds records the address of the failed fetch (R171, decision D5, log entry 10). -/
def State.raiseOutOfBounds (s : State) : State := s.raise .outOfBounds (some s.pc) none

/-- StackOverflow records nothing the source names (R172, decision D15, log entry 1). -/
def State.raiseStackOverflow (s : State) : State := s.raise .stackOverflow none none

/-- StackUnderflow records nothing the source names (R173, decision D15, log entry 1). -/
def State.raiseStackUnderflow (s : State) : State := s.raise .stackUnderflow none none

/-- UnimplementedOpcode records the word (R174). -/
def State.raiseUnimplementedOpcode (s : State) (w : Opcode) : State := s.raise .unimplementedOpcode none (some w)

/-- The word a fetch at `pc` reads, big-endian; nothing when `pc + 1` exceeds 4095, compared on unbounded integers
(R80). An odd pc fetches like an even one (R44, decision D2, log entry 8). -/
def State.fetch (s : State) : Option Opcode :=
  if s.pc.toNat + 1 > Config.lastAddr then none
  else some (bigEndian (Memory.byteAt s.mem s.pc.toNat) (Memory.byteAt s.mem (s.pc.toNat + 1)))

/-- The state in which the next step fetches the word `w`: `w` stands at the program counter and the block is Running.
Where no fetch can succeed at the program counter, it is moved to 0 (log entry 4). -/
def State.placeWord (s : State) (w : Opcode) : State :=
  let p : Addr := if s.pc.toNat + 1 > Config.lastAddr then 0#16 else s.pc
  { s with pc := p, mem := storeWord s.mem p.toNat w, status := .running }

/-- The spec's codes of the run status (R31, decision D8, log entry 13). -/
def Status.code : Status → BitVec 2
  | .idle => 0#2
  | .running => 1#2
  | .halted => 2#2
  | .faulted => 3#2

/-- The spec's codes of the fault reasons (R32, decision D8, log entry 13). -/
def FaultReason.code : FaultReason → BitVec 2
  | .outOfBounds => 0#2
  | .stackOverflow => 1#2
  | .stackUnderflow => 2#2
  | .unimplementedOpcode => 3#2

/-- Halted and Faulted are the terminal states (R87). -/
def Status.isTerminal : Status → Bool
  | .idle => false
  | .running => false
  | .halted => true
  | .faulted => true

end Sys2Proof.Machine
end

