-- ==== Sys2Proof/Machine/Flags.lean ====
section
/-! DEFINITION. Addition and its one flag, the carry held in VF (10_state.md R27, 43_alu.md R146, R147). -/

namespace Sys2Proof.Machine

/-- The unbounded sum of two bytes, 0..510 (R11, R146). -/
def unreducedSum (a b : Byte) : Nat := a.toNat + b.toNat

/-- The sum modulo 256 (R141, R146). -/
def wrappedSum (a b : Byte) : Byte := BitVec.ofNat 8 (unreducedSum a b % 256)

/-- The carry: 1 exactly when the unreduced sum exceeds 255, and 0 otherwise (R146). -/
def carryFlag (a b : Byte) : Byte := if unreducedSum a b > 255 then 1#8 else 0#8

end Sys2Proof.Machine
end

