-- ==== Sys2Proof/Machine/Operands.lean ====
section
/-! DEFINITION. The operand forms: a register V[x] or V[y] (30_encoding.md R61, R62), an immediate byte used as is
(R63), and a 12-bit absolute target widened with zeros (R65). -/

namespace Sys2Proof.Machine

/-- A source operand of a comparison, load or arithmetic instruction. -/
inductive Source where
  | register (i : RegIndex)
  | immediate (kk : Byte)
  deriving DecidableEq, Repr

/-- The value of a source operand: the register's current value, VF's like any other's (R22, R148), or the immediate
with no extension, scaling or shift (R63). -/
def Source.value (s : State) : Source → Byte
  | .register i => s.reg i
  | .immediate kk => kk

/-- `zext_16(addr)`, an absolute target: neither scaled nor relative to the program counter (R65, R106). -/
def targetOf (addr : AddrField) : Addr := addr.setWidth 16

end Sys2Proof.Machine
end

