-- ==== Sys2Proof/Machine/Alu.lean ====
section
/-! DEFINITION. Load, arithmetic and logic instructions (43_alu.md). Source operands are read before the first write,
pc keeps p + 2, and VF as an explicit operand is like any other register (R148). -/

namespace Sys2Proof.Machine

/-- LoadImmediate (R140): `V[x] <- kk`. -/
def execLoadImmediate (x : RegIndex) (kk : Byte) (s : State) : Host.Outcome State Fault Refusal :=
  .next (s.setReg x (Source.value s (.immediate kk)))

/-- AddImmediate (R141): the sum wraps and no flag is written (K4, log entry 20). -/
def execAddImmediate (x : RegIndex) (kk : Byte) (s : State) : Host.Outcome State Fault Refusal :=
  .next (s.setReg x (wrappedSum (s.reg x) (Source.value s (.immediate kk))))

/-- Move (R142): `V[x] <- V[y]`. -/
def execMove (x y : RegIndex) (s : State) : Host.Outcome State Fault Refusal :=
  .next (s.setReg x (Source.value s (.register y)))

/-- Or (R143): VF is not reset. -/
def execOr (x y : RegIndex) (s : State) : Host.Outcome State Fault Refusal :=
  .next (s.setReg x (s.reg x ||| Source.value s (.register y)))

/-- And (R144). -/
def execAnd (x y : RegIndex) (s : State) : Host.Outcome State Fault Refusal :=
  .next (s.setReg x (s.reg x &&& Source.value s (.register y)))

/-- Xor (R145). -/
def execXor (x y : RegIndex) (s : State) : Host.Outcome State Fault Refusal :=
  .next (s.setReg x (s.reg x ^^^ Source.value s (.register y)))

/-- AddRegisters (R146): the sum modulo 256 into V[x] and then the carry into VF, so with x = 0xF the carry is what
VF keeps (R22, decision D7, log entry 12). -/
def execAddRegisters (x y : RegIndex) (s : State) : Host.Outcome State Fault Refusal :=
  .next ((s.setReg x (wrappedSum (s.reg x) (Source.value s (.register y)))).setReg vf
    (carryFlag (s.reg x) (Source.value s (.register y))))

end Sys2Proof.Machine
end

