-- ==== Sys2Proof/Machine/Compare.lean ====
section
/-! DEFINITION. The three conditional skips (42_comparison.md): unsigned 8-bit equality decides whether the
pre-advanced pc is advanced by 2 once more. -/

namespace Sys2Proof.Machine

/-- `if taken then pc <- pc + 2`: one 16-bit word is skipped, whatever it holds (R123). -/
def skipIf (taken : Bool) (s : State) : State := if taken then s.advancePc else s

/-- SkipEqualImmediate (R120). -/
def execSkipEqualImmediate (x : RegIndex) (kk : Byte) (s : State) : Host.Outcome State Fault Refusal :=
  .next (skipIf (s.reg x == Source.value s (.immediate kk)) s)

/-- SkipNotEqualImmediate (R121). -/
def execSkipNotEqualImmediate (x : RegIndex) (kk : Byte) (s : State) : Host.Outcome State Fault Refusal :=
  .next (skipIf (s.reg x != Source.value s (.immediate kk)) s)

/-- SkipEqualRegisters (R122). -/
def execSkipEqualRegisters (x y : RegIndex) (s : State) : Host.Outcome State Fault Refusal :=
  .next (skipIf (s.reg x == Source.value s (.register y)) s)

end Sys2Proof.Machine
end

