-- ==== Sys2Proof/Machine/ControlFlow.lean ====
section
/-! DEFINITION. Halt, ClearScreen, Return, Jump and Call (41_control_flow.md). A meaning runs after the pre-advance: on
entry the program counter is the instruction's address + 2. -/

namespace Sys2Proof.Machine

/-- Halt (R100): status becomes Halted and nothing else is written; pc keeps p + 2 (decision D4, log entry 9). -/
def execHalt (s : State) : Host.Outcome State Fault Refusal := .next s.halt

/-- ClearScreen (R101): a defined no-op; the block has no display. -/
def execClearScreen (s : State) : Host.Outcome State Fault Refusal := .next s

/-- Return (R102): pops the full 16-bit slot into pc, or raises StackUnderflow when sp = 0 with sp and S unchanged
(R173, decision D6, log entry 11). -/
def execReturn (s : State) : Host.Outcome State Fault Refusal :=
  match s.popPc with
  | some t => .next t
  | none => .next s.raiseStackUnderflow

/-- Jump (R103): `pc <- zext_16(addr)`. -/
def execJump (addr : AddrField) (s : State) : Host.Outcome State Fault Refusal := .next (s.setPc (targetOf addr))

/-- Call (R104): pushes the pre-advanced pc and transfers, or raises StackOverflow when sp = 16 with sp, S and pc
unchanged (R172, decision D6, log entry 11). -/
def execCall (addr : AddrField) (s : State) : Host.Outcome State Fault Refusal :=
  match s.pushPc with
  | some t => .next (t.setPc (targetOf addr))
  | none => .next s.raiseStackOverflow

end Sys2Proof.Machine
end

