-- ==== Sys2Proof/Machine/Dispatch.lean ====
section
/-! DEFINITION. Dispatch (40_fetch_execute.md R83): one arm per instruction of the opcode map. -/

namespace Sys2Proof.Machine

def exec (i : Instr) (s : State) : Host.Outcome State Fault Refusal :=
  match i with
  -- control flow
  | .halt => Sys2Proof.Machine.execHalt s
  | .clearScreen => Sys2Proof.Machine.execClearScreen s
  | .ret => Sys2Proof.Machine.execReturn s
  | .jump addr => Sys2Proof.Machine.execJump addr s
  | .call addr => Sys2Proof.Machine.execCall addr s
  -- comparison
  | .skipEqualImmediate x kk => Sys2Proof.Machine.execSkipEqualImmediate x kk s
  | .skipNotEqualImmediate x kk => Sys2Proof.Machine.execSkipNotEqualImmediate x kk s
  | .skipEqualRegisters x y => Sys2Proof.Machine.execSkipEqualRegisters x y s
  -- load, arithmetic and logic
  | .loadImmediate x kk => Sys2Proof.Machine.execLoadImmediate x kk s
  | .addImmediate x kk => Sys2Proof.Machine.execAddImmediate x kk s
  | .move x y => Sys2Proof.Machine.execMove x y s
  | .orRegisters x y => Sys2Proof.Machine.execOr x y s
  | .andRegisters x y => Sys2Proof.Machine.execAnd x y s
  | .xorRegisters x y => Sys2Proof.Machine.execXor x y s
  | .addRegisters x y => Sys2Proof.Machine.execAddRegisters x y s

end Sys2Proof.Machine
end

