-- ==== Sys2Proof/Machine/Step.lean ====
section
/-! DEFINITION. One step of the engine (40_fetch_execute.md R86): fetch, pre-advance, decode and dispatch; defined only
when status is Running. -/

namespace Sys2Proof.Machine

/-- The step's part after a successful fetch of `w`, from the pre-advanced state `s` (R82 to R85). -/
def dispatchWord (w : Opcode) (s : State) : Host.Outcome State Fault Refusal :=
  match decode w with
  | .instr i => exec i s
  | .unimplementedOpcode opcode => .next (s.raiseUnimplementedOpcode opcode)

/-- One iteration of the run loop (R86). A fatal condition is a next state whose status is Faulted (R88, R175; log
entry 3); from a status other than Running no step exists (R91, K15). -/
def step (s : State) : Host.Outcome State Fault Refusal :=
  match s.status with
  | .running =>
    match s.fetch with
    | some w => dispatchWord w s.advancePc
    | none => .next s.raiseOutOfBounds
  | .idle => .fault (.notRunning .idle)
  | .halted => .fault (.notRunning .halted)
  | .faulted => .fault (.notRunning .faulted)

/-- `s` with a table word where the next step fetches, and the block Running: it stands for the host's writes and its
Run (70_reset_and_hazards.md R203, R209; log entry 4). -/
def State.withFetchWord (s : State) (nbits w : Nat) : State := s.placeWord (tableWord nbits w)

end Sys2Proof.Machine
end

