-- ==== Sys2Proof/Machine/HostInterface.lean ====
section
/-! DEFINITION. The abstract operations the block offers its driver (00_scope.md R16, 70_reset_and_hazards.md R203 to
R212, R216). Every state of the model lies between two steps, where the host may act; it has no move during a step
(R212, decision D16, log entry 17). -/

namespace Sys2Proof.Machine

/-- Initialize (R205): every field to its reset value (R35). The model's draw counter goes on (log entry 1). It is
carried out from any state, since each lies between two steps (R211; log entry 5). -/
def hostInitialize (s : State) : State := { State.reset with freeDraws := s.freeDraws }

/-- A host write that would be `t`, refused while status is Running (R206 to R208, R212). -/
def unlessRunning (s t : State) : Host.Outcome State Fault Refusal :=
  if s.status = .running then .refused .hostWriteWhileRunning else .next t

/-- HostWriteMem(a, v): `M[a] <- v` for an address up to 4095 and a byte up to 255 (R206); other arguments are refused
(decision D10, log entry 14). -/
def hostWriteMem (a v : Nat) (s : State) : Host.Outcome State Fault Refusal :=
  if a ≤ Config.lastAddr then
    if v ≤ Config.maxByte then unlessRunning s { s with mem := Memory.write s.mem a (BitVec.ofNat 8 v) }
    else .refused (.hostValueOutOfRange v)
  else .refused (.hostAddressOutOfRange a)

/-- HostWriteReg(i, v): `V[i] <- v` for an index up to 15 and a byte up to 255 (R207); other arguments are refused
(decision D10, log entry 14). -/
def hostWriteReg (i v : Nat) (s : State) : Host.Outcome State Fault Refusal :=
  if i < Config.numRegs then
    if v ≤ Config.maxByte then unlessRunning s (s.setReg (BitVec.ofNat 4 i) (BitVec.ofNat 8 v))
    else .refused (.hostValueOutOfRange v)
  else .refused (.hostRegisterOutOfRange i)

/-- HostWritePC(v): `pc <- v` for a value up to 0xFFFF, also one from which no fetch can succeed (R208); a larger value
is refused (decision D10, log entry 14). No host operation writes sp or S (R208). -/
def hostWritePC (v : Nat) (s : State) : Host.Outcome State Fault Refusal :=
  if v ≤ Config.maxPc then unlessRunning s (s.setPc (BitVec.ofNat 16 v)) else .refused (.hostValueOutOfRange v)

/-- Run's entry: `status <- Running`, every field of CPU State as the host left it (R89, R209), also on a state whose
last Run ended (R216, decision D11, log entry 15). The record of an earlier fault is left where it is and is not
valid (R32; log entry 15). -/
def startRun (s : State) : State := { s with status := .running }

/-- Step, the optional host operation (R210): exactly one iteration of the run loop, when status is Running. -/
def hostStep (s : State) : Host.Outcome State Fault Refusal := step s

/-- Step until status is not Running, at most `n` times: a Run the host bounds by a step count (R95, R209, R210). -/
def runFor : Nat → State → State
  | 0, s => s
  | n + 1, s =>
    match step s with
    | .next t => runFor n t
    | .fault _ => s
    | .refused _ => s

/-- Run on `s` returns with the state `t`: stepping from the entry reaches `t`, whose status is Halted or Faulted (R94,
R209). A run that never gets there returns no state (R90). -/
def RunReturns (s t : State) : Prop := ∃ n, runFor n (startRun s) = t ∧ t.status.isTerminal = true

/-- Read state: V[i] (R211). -/
def hostReadReg (s : State) (i : Nat) : Option Byte :=
  if i < Config.numRegs then some (s.reg (BitVec.ofNat 4 i)) else none

/-- Read state: M[a] (R211). -/
def hostReadMem (s : State) (a : Nat) : Option Byte := memRead s.mem a

/-- Read state: S[j] (R211). -/
def hostReadSlot (s : State) (j : Nat) : Option Addr := if h : j < 16 then some (s.slot ⟨j, h⟩) else none

/-- Read state: pc (R211). -/
def hostReadPC (s : State) : Addr := s.pc

/-- Read state: sp (R211). -/
def hostReadSP (s : State) : Nat := s.sp.val

/-- Read state: status, as its code (R211, R31). -/
def hostReadStatus (s : State) : BitVec 2 := s.status.code

/-- Read state: the fault record, valid only when status is Faulted (R211, R32). -/
def hostReadFault (s : State) : Option FaultRecord := if s.status = .faulted then s.fault else none

/-- The lines of an image stored from address `a` on, each word big-endian, densely packed (R204). -/
def storeLines : Memory → Nat → List Line → Memory
  | m, _, [] => m
  | m, a, l :: ls => storeLines (storeWord m a l.encoded) (a + 2) ls

/-- The host's writes of a whole program image, HostWriteMem for each of its bytes (R203, R204; log entry
23). -/
def hostLoadImage (img : Image) (s : State) : Host.Outcome State Fault Refusal :=
  if img.wellFormed then unlessRunning s { s with mem := storeLines s.mem img.base img.lines }
  else .refused .imageOutsideMemory

/-- The boot sequence up to Run's first step: Initialize, the image, pc at its base, Run (R203).
The base is the parameter entry_pc (R9, R201, decision D17, log entry 22). -/
def boot (img : Image) (s : State) : Host.Outcome State Fault Refusal :=
  match hostLoadImage img (hostInitialize s) with
  | .next t =>
    match hostWritePC img.base t with
    | .next u => .next (startRun u)
    | .fault r => .fault r
    | .refused r => .refused r
  | .fault r => .fault r
  | .refused r => .refused r

end Sys2Proof.Machine
end

