-- ==== Sys2Proof/Safety.lean ====
section
/-! DEFINITION. What counts as a safe run, in the terms the claims use: frames, the conditions of the run loop's
transitions, the register table of 10_state.md R21, reachability, and the invariant of the block. -/

namespace Sys2Proof.Machine

/-- Every byte of memory reads the same in both states. -/
def SameMemory (s t : State) : Prop := ∀ a, Memory.byteAt t.mem a = Memory.byteAt s.mem a

/-- Every register reads the same in both states. -/
def SameRegs (s t : State) : Prop := ∀ r, t.reg r = s.reg r

/-- Every slot of the call stack and the stack pointer are the same in both states. -/
def SameStack (s t : State) : Prop := t.sp = s.sp ∧ ∀ j, t.slot j = s.slot j

/-- The run status and the fault record are the same in both states. -/
def SameRun (s t : State) : Prop := t.status = s.status ∧ t.fault = s.fault

/-- The frame of an instruction that writes registers only: pc keeps the pre-advanced value, and call stack, memory,
status and fault record are as before. -/
def SameButRegs (s t : State) : Prop := t.pc = s.pc ∧ SameStack s t ∧ SameMemory s t ∧ SameRun s t

/-- The frame of an instruction that writes pc only. -/
def SameButPc (s t : State) : Prop := SameRegs s t ∧ SameStack s t ∧ SameMemory s t ∧ SameRun s t

/-- CPU State apart from pc is as before: what every fault leaves (60_exceptions.md R176). -/
def SameCpuButPc (s t : State) : Prop := SameRegs s t ∧ SameStack s t ∧ SameMemory s t

/-- The state has faulted for this reason, its record valid. -/
def FaultedFor (reason : FaultReason) (t : State) : Prop :=
  t.status = .faulted ∧ ∃ r, t.fault = some r ∧ r.reason = reason

/-- The next fetch can succeed (40_fetch_execute.md R80). -/
abbrev Fetchable (s : State) : Prop := s.pc.toNat ≤ 4094

/-- The next fetch reads the word `w`: its bytes stand at pc and pc + 1, the high one first (R43, R80). -/
abbrev FetchesWord (s : State) (w : Opcode) : Prop :=
  Fetchable s ∧ Memory.byteAt s.mem s.pc.toNat = w.extractLsb' 8 8 ∧
    Memory.byteAt s.mem (s.pc.toNat + 1) = w.extractLsb' 0 8

/-- The fatal condition of each reason, read off the state a step starts from (R170 to R174). -/
def FatalCondition (s : State) : FaultReason → Prop
  | .outOfBounds => 4095 ≤ s.pc.toNat
  | .stackOverflow => ∃ addr : AddrField, FetchesWord s (0x2#4 ++ addr) ∧ s.sp.val = 16
  | .stackUnderflow => FetchesWord s 0x00EE#16 ∧ s.sp.val = 0
  | .unimplementedOpcode => ∃ w, FetchesWord s w ∧ decode w = .unimplementedOpcode w

/-- The registers an instruction reads (10_state.md R21). -/
def readsReg : Instr → RegIndex → Bool
  | .skipEqualImmediate x _, r => r == x
  | .skipNotEqualImmediate x _, r => r == x
  | .skipEqualRegisters x y, r => r == x || r == y
  | .addImmediate x _, r => r == x
  | .move _ y, r => r == y
  | .orRegisters x y, r => r == x || r == y
  | .andRegisters x y, r => r == x || r == y
  | .xorRegisters x y, r => r == x || r == y
  | .addRegisters x y, r => r == x || r == y
  | .halt, _ => false
  | .clearScreen, _ => false
  | .ret, _ => false
  | .jump _, _ => false
  | .call _, _ => false
  | .loadImmediate _ _, _ => false

/-- The registers an instruction writes (R21): AddRegisters writes V[x] and VF. -/
def writesReg : Instr → RegIndex → Bool
  | .loadImmediate x _, r => r == x
  | .addImmediate x _, r => r == x
  | .move x _, r => r == x
  | .orRegisters x _, r => r == x
  | .andRegisters x _, r => r == x
  | .xorRegisters x _, r => r == x
  | .addRegisters x _, r => r == x || r == 0xF#4
  | .halt, _ => false
  | .clearScreen, _ => false
  | .ret, _ => false
  | .jump _, _ => false
  | .call _, _ => false
  | .skipEqualImmediate _ _, _ => false
  | .skipNotEqualImmediate _ _, _ => false
  | .skipEqualRegisters _ _, _ => false

/-- States that steps lead to from `s`. -/
inductive Reaches (s : State) : State → Prop where
  | here : Reaches s s
  | step {t u : State} : Reaches s t → step t = .next u → Reaches s u

/-- A run of `n` steps at most is safe when it has met no fatal condition. -/
def SafeFor (n : Nat) (s : State) : Prop := (runFor n s).status ≠ .faulted

/-- The invariant of the block: memory is in canonical form (the model's own form, DESIGN CHOICE, log entry 2), every slot
of the call stack holds an address a Call can push (at most 4096, R104) and pc an address a step can leave (at most
4098, R25), and a Faulted status has a valid record (R32). -/
structure Inv (s : State) : Prop where
  memory : Memory.wf s.mem = true
  slots : ∀ j, (s.slot j).toNat ≤ 4096
  pc : s.pc.toNat ≤ 4098
  record : s.status = .faulted → s.fault.isSome = true

end Sys2Proof.Machine
end

