-- ==== Sys2Proof/Certificates/Slice0/Obligations.lean ====
section
/-! DEFINITION. The statements for the provers, from the spec's numbered rules. Where a statement rests on a decision
D<n> of 92_eei_decisions.md (the spec's own choice) or on a log entry (the model's), its docstring says so. -/

open Sys2Proof Sys2Proof.Machine

/- Encoding (30_encoding.md) -/

/-- Every well-formed instruction's word and bytes decode to it, the bytes after it left over (30_encoding.md). -/
def Obligations.DecodeOfEncodeIsTheInstruction : Prop :=
  ∀ (i : Instr) (rest : List Byte), i.wellFormed = true →
    decode (encode i) = .instr i ∧ decodeBytes (encodeBytes i ++ rest) = .instr i rest

/-- No recognised word has a don't-care bit: it is the encoding of what it decodes to, and that is well formed (R77). -/
def Obligations.RecognisedWordIsTheEncodingOfItsInstruction : Prop :=
  ∀ (w : Opcode) (i : Instr), decode w = .instr i → encode i = w ∧ i.wellFormed = true

/-- R76 with the map of R66: every word is one of the fifteen instructions, selected by its row's mask and match, with
the fields of R61 to R65, or UnimplementedOpcode of that word. -/
def Obligations.EveryWordDecodesByTheOpcodeMap : Prop :=
  ∀ w : Opcode,
    ((∃ i, decode w = .instr i) ∨ decode w = .unimplementedOpcode w) ∧
    (∀ v, decode w = .unimplementedOpcode v → v = w) ∧
    (decode w = .instr .halt ↔ w &&& 0xFFFF#16 = 0x0000#16) ∧
    (decode w = .instr .clearScreen ↔ w &&& 0xFFFF#16 = 0x00E0#16) ∧
    (decode w = .instr .ret ↔ w &&& 0xFFFF#16 = 0x00EE#16) ∧
    (∀ a, decode w = .instr (.jump a) ↔ w &&& 0xF000#16 = 0x1000#16 ∧ a.toNat = w.toNat % 4096) ∧
    (∀ a, decode w = .instr (.call a) ↔ w &&& 0xF000#16 = 0x2000#16 ∧ a.toNat = w.toNat % 4096) ∧
    (∀ x k, decode w = .instr (.skipEqualImmediate x k) ↔
      w &&& 0xF000#16 = 0x3000#16 ∧ x.toNat = w.toNat / 256 % 16 ∧ k.toNat = w.toNat % 256) ∧
    (∀ x k, decode w = .instr (.skipNotEqualImmediate x k) ↔
      w &&& 0xF000#16 = 0x4000#16 ∧ x.toNat = w.toNat / 256 % 16 ∧ k.toNat = w.toNat % 256) ∧
    (∀ x y, decode w = .instr (.skipEqualRegisters x y) ↔
      w &&& 0xF00F#16 = 0x5000#16 ∧ x.toNat = w.toNat / 256 % 16 ∧ y.toNat = w.toNat / 16 % 16) ∧
    (∀ x k, decode w = .instr (.loadImmediate x k) ↔
      w &&& 0xF000#16 = 0x6000#16 ∧ x.toNat = w.toNat / 256 % 16 ∧ k.toNat = w.toNat % 256) ∧
    (∀ x k, decode w = .instr (.addImmediate x k) ↔
      w &&& 0xF000#16 = 0x7000#16 ∧ x.toNat = w.toNat / 256 % 16 ∧ k.toNat = w.toNat % 256) ∧
    (∀ x y, decode w = .instr (.move x y) ↔
      w &&& 0xF00F#16 = 0x8000#16 ∧ x.toNat = w.toNat / 256 % 16 ∧ y.toNat = w.toNat / 16 % 16) ∧
    (∀ x y, decode w = .instr (.orRegisters x y) ↔
      w &&& 0xF00F#16 = 0x8001#16 ∧ x.toNat = w.toNat / 256 % 16 ∧ y.toNat = w.toNat / 16 % 16) ∧
    (∀ x y, decode w = .instr (.andRegisters x y) ↔
      w &&& 0xF00F#16 = 0x8002#16 ∧ x.toNat = w.toNat / 256 % 16 ∧ y.toNat = w.toNat / 16 % 16) ∧
    (∀ x y, decode w = .instr (.xorRegisters x y) ↔
      w &&& 0xF00F#16 = 0x8003#16 ∧ x.toNat = w.toNat / 256 % 16 ∧ y.toNat = w.toNat / 16 % 16) ∧
    (∀ x y, decode w = .instr (.addRegisters x y) ↔
      w &&& 0xF00F#16 = 0x8004#16 ∧ x.toNat = w.toNat / 256 % 16 ∧ y.toNat = w.toNat / 16 % 16)

/-- The illegal words are exactly the ranges of R67's table; the range 0x5xyN with N ≠ 0 is decision D3, log entry 6, the spec's own. -/
def Obligations.IllegalWordsAreTheRangesOfTheTable : Prop :=
  ∀ w : Opcode, decode w = .unimplementedOpcode w ↔
    (0x0001 ≤ w.toNat ∧ w.toNat ≤ 0x00DF) ∨ (0x00E1 ≤ w.toNat ∧ w.toNat ≤ 0x00ED) ∨
    (0x00EF ≤ w.toNat ∧ w.toNat ≤ 0x0FFF) ∨
    (0x5000 ≤ w.toNat ∧ w.toNat ≤ 0x5FFF ∧ w.toNat % 16 ≠ 0) ∨
    (0x8000 ≤ w.toNat ∧ w.toNat ≤ 0x8FFF ∧ 5 ≤ w.toNat % 16) ∨ 0x9000 ≤ w.toNat

/-- The words of 95_test_vectors.md, one or more of every family, decode to the instructions they stand for. -/
def Obligations.SampleWordsDecodeAsTheVectorsSay : Prop :=
  decode 0x0000#16 = .instr .halt ∧ decode 0x00E0#16 = .instr .clearScreen ∧ decode 0x00EE#16 = .instr .ret ∧
  decode 0x1234#16 = .instr (.jump 0x234#12) ∧ decode 0x2300#16 = .instr (.call 0x300#12) ∧
  decode 0x332A#16 = .instr (.skipEqualImmediate 3#4 0x2A#8) ∧
  decode 0x4001#16 = .instr (.skipNotEqualImmediate 0#4 0x01#8) ∧
  decode 0x5120#16 = .instr (.skipEqualRegisters 1#4 2#4) ∧
  decode 0x6A07#16 = .instr (.loadImmediate 0xA#4 0x07#8) ∧
  decode 0x7105#16 = .instr (.addImmediate 1#4 0x05#8) ∧
  decode 0x8120#16 = .instr (.move 1#4 2#4) ∧ decode 0x8011#16 = .instr (.orRegisters 0#4 1#4) ∧
  decode 0x8012#16 = .instr (.andRegisters 0#4 1#4) ∧ decode 0x8013#16 = .instr (.xorRegisters 0#4 1#4) ∧
  decode 0x8344#16 = .instr (.addRegisters 3#4 4#4) ∧ decode 0xD000#16 = .unimplementedOpcode 0xD000#16

/-- R74's lines (decision D14, log entry 21, the spec's own): a line assembles exactly when it is well formed, and an instruction's
line assembles to that instruction. -/
def Obligations.AssemblyLinesAssembleExactlyWhenWellFormed : Prop :=
  (∀ l : AsmLine, l.wellFormed = true ↔ ∃ k, l.assemble = some k) ∧
  (∀ i : Instr, i.asm.assemble = some (.instr i))

/- Fetch and the step (20_memory.md, 40_fetch_execute.md) -/

/-- Fetch is big-endian (20_memory.md R43) and succeeds from every pc up to 4094 (40_fetch_execute.md R80), an odd one
included: that is decision D2 (R26, R44), log entry 8, the spec's own. -/
def Obligations.FetchIsBigEndian : Prop :=
  ∀ s : State, s.pc.toNat ≤ 4094 → ∃ w, s.fetch = some w ∧
    w.toNat = (Memory.byteAt s.mem s.pc.toNat).toNat * 256 + (Memory.byteAt s.mem (s.pc.toNat + 1)).toNat

/-- R82: after a successful fetch the step runs the decoded instruction from the pre-advanced state, whose pc is p + 2
with no wrap, and an unimplemented word is pre-advanced over too. -/
def Obligations.StepRunsTheDecodedInstruction : Prop :=
  ∀ (s : State) (w : Opcode), s.status = .running → FetchesWord s w →
    (s.pc + 2#16).toNat = s.pc.toNat + 2 ∧
    (∀ i, decode w = .instr i → step s = exec i { s with pc := s.pc + 2#16 }) ∧
    (decode w = .unimplementedOpcode w → ∃ t, step s = .next t ∧ t.pc = s.pc + 2#16)

/-- R174: a word outside the opcode map raises UnimplementedOpcode after the pre-advance, the word recorded and V, S,
sp and M unchanged. -/
def Obligations.UnimplementedWordFaultsAfterThePreAdvance : Prop :=
  ∀ (s : State) (w : Opcode), s.status = .running → FetchesWord s w → (∀ i, encode i ≠ w) →
    ∃ t r, step s = .next t ∧ t.status = .faulted ∧ t.fault = some r ∧ r.reason = .unimplementedOpcode ∧
      r.opcode = w ∧ t.pc.toNat = s.pc.toNat + 2 ∧ SameCpuButPc s t

/-- A fetch at a pc above 4094 raises OutOfBounds with pc, V, S, sp and M unchanged; that pc stays and that the record
holds p is decision D5, log entry 10, the spec's own. -/
def Obligations.OutOfBoundsFetchLeavesPcAndRecordsIt : Prop :=
  ∀ s : State, s.status = .running → 4095 ≤ s.pc.toNat →
    ∃ t r, step s = .next t ∧ t.status = .faulted ∧ t.fault = some r ∧ r.reason = .outOfBounds ∧ r.addr = s.pc ∧
      t.pc = s.pc ∧ SameCpuButPc s t

/-- No step exists unless status is Running; Idle is decision D18, log entry 16, the spec's own, and the name of the stop
is the model's (log entry 3). -/
def Obligations.NoStepExistsOutsideRunning : Prop :=
  ∀ s : State, s.status ≠ .running → step s = .fault (.notRunning s.status)

/-- R88: a step from Running always answers a state. It is Halted exactly when the word is 0x0000, Faulted exactly when
a fatal condition holds, and Running otherwise. -/
def Obligations.StepTransitionsAreThoseOfTheRunLoop : Prop :=
  ∀ s : State, s.status = .running → ∃ t, step s = .next t ∧
    (t.status = .halted ↔ FetchesWord s 0x0000#16) ∧
    (t.status = .faulted ↔ ∃ reason, FatalCondition s reason) ∧
    (t.status = .running ↔ ¬ FetchesWord s 0x0000#16 ∧ ¬ ∃ reason, FatalCondition s reason)

/-- The reason recorded is the one whose condition holds, and no two conditions hold at once (60_exceptions.md R170,
R177, which the spec derives). -/
def Obligations.FaultReasonIsTheConditionThatHolds : Prop :=
  ∀ (s t : State) (reason : FaultReason), step s = .next t →
    (FaultedFor reason t ↔ FatalCondition s reason) ∧
    (∀ other, FatalCondition s reason → FatalCondition s other → other = reason)

/-- The state at a fault is the state before the step, with pc = p for OutOfBounds and p + 2 for every other reason
(60_exceptions.md R176, which the spec derives from its decisions D5, log entry 10, and D6, log entry 11). -/
def Obligations.FaultLeavesOnlyThePreAdvance : Prop :=
  ∀ s t : State, step s = .next t → t.status = .faulted →
    SameCpuButPc s t ∧ (FaultedFor .outOfBounds t → t.pc = s.pc) ∧
    (¬ FaultedFor .outOfBounds t → t.pc.toNat = s.pc.toNat + 2)

/- Control flow (41_control_flow.md) -/

/-- Halt ends the run with nothing else written; that pc is the Halt's address + 2 is decision D4, log entry 9, the spec's own. -/
def Obligations.HaltEndsTheRunAndWritesNothingElse : Prop :=
  ∀ s : State,
    (∃ t, exec .halt s = .next t ∧ t.status = .halted ∧ t.pc = s.pc ∧ t.fault = s.fault ∧ SameCpuButPc s t) ∧
    (s.status = .running → FetchesWord s 0x0000#16 →
      ∃ t, step s = .next t ∧ t.status = .halted ∧ t.pc.toNat = s.pc.toNat + 2 ∧ t.fault = s.fault ∧ SameCpuButPc s t)

/-- R101: ClearScreen changes no state but pc, which keeps p + 2. -/
def Obligations.ClearScreenChangesOnlyThePc : Prop :=
  ∀ s : State,
    (∃ t, exec .clearScreen s = .next t ∧ t.pc = s.pc ∧ SameButPc s t) ∧
    (s.status = .running → FetchesWord s 0x00E0#16 →
      ∃ t, step s = .next t ∧ t.pc.toNat = s.pc.toNat + 2 ∧ SameButPc s t)

/-- Return with an occupied stack (41_control_flow.md R102): sp is one less, pc the whole 16-bit slot, and the slot
keeps its value. -/
def Obligations.ReturnPopsTheCallStack : Prop :=
  ∀ s : State, 0 < s.sp.val → decode 0x00EE#16 = .instr .ret ∧
    ∃ t, exec .ret s = .next t ∧ t.sp.val + 1 = s.sp.val ∧
      (∀ j : Fin 16, j.val + 1 = s.sp.val → t.pc = s.slot j) ∧
      (∀ j, t.slot j = s.slot j) ∧ SameRegs s t ∧ SameMemory s t ∧ SameRun s t

/-- Return with an empty stack raises StackUnderflow; that sp and S are unchanged is decision D6, log entry 11, the spec's own. -/
def Obligations.ReturnWithAnEmptyStackFaults : Prop :=
  ∀ s : State, s.sp.val = 0 →
    ∃ t, exec .ret s = .next t ∧ FaultedFor .stackUnderflow t ∧ t.pc = s.pc ∧ SameCpuButPc s t

/-- R103: Jump replaces pc by its address widened with zeros, and writes nothing else. -/
def Obligations.JumpReplacesThePc : Prop :=
  ∀ (addr : AddrField) (s : State), decode (0x1#4 ++ addr) = .instr (.jump addr) ∧
    ∃ t, exec (.jump addr) s = .next t ∧ t.pc.toNat = addr.toNat ∧ SameButPc s t

/-- Call with a free slot (41_control_flow.md R104): the pre-advanced pc goes to slot sp, every other slot is as before,
sp is one more and pc the address. -/
def Obligations.CallPushesThePreAdvancedPc : Prop :=
  ∀ (addr : AddrField) (s : State), s.sp.val < 16 → decode (0x2#4 ++ addr) = .instr (.call addr) ∧
    ∃ t, exec (.call addr) s = .next t ∧ t.sp.val = s.sp.val + 1 ∧
      (∀ j : Fin 16, t.slot j = if j.val = s.sp.val then s.pc else s.slot j) ∧
      t.pc.toNat = addr.toNat ∧ SameRegs s t ∧ SameMemory s t ∧ SameRun s t

/-- Call with a full stack raises StackOverflow and does not transfer; that sp and S are unchanged is decision D6, log entry 11, the
spec's own. -/
def Obligations.CallWithAFullStackFaults : Prop :=
  ∀ (addr : AddrField) (s : State), s.sp.val = 16 →
    ∃ t, exec (.call addr) s = .next t ∧ FaultedFor .stackOverflow t ∧ t.pc = s.pc ∧ SameCpuButPc s t

/-- A Call, and a Return as the first instruction at its target, resume after the Call with sp as before
(41_control_flow.md R105, which the spec derives). -/
def Obligations.CallThenReturnResumesAfterTheCall : Prop :=
  ∀ (s : State) (addr : AddrField), s.status = .running → FetchesWord s (0x2#4 ++ addr) → s.sp.val < 16 →
    addr.toNat ≤ 4094 → Memory.byteAt s.mem addr.toNat = 0x00#8 → Memory.byteAt s.mem (addr.toNat + 1) = 0xEE#8 →
    ∃ t u, step s = .next t ∧ step t = .next u ∧ u.pc.toNat = s.pc.toNat + 2 ∧ u.sp = s.sp ∧ u.status = .running ∧
      SameRegs s u ∧ SameMemory s u

/-- A Jump to itself runs forever (40_fetch_execute.md R90): its step completes with the state as it was, so every number
of steps completes, none changes anything, and its Run never returns. -/
def Obligations.JumpToItselfRunsForever : Prop :=
  ∀ (s : State) (addr : AddrField), s.status = .running → FetchesWord s (0x1#4 ++ addr) → addr.toNat = s.pc.toNat →
    step s = .next s ∧ (∀ n, Host.Core.run core n s = .next s ∧ runFor n s = s) ∧ ∀ t, ¬ RunReturns s t

/-- A Call to itself from an empty stack fills all sixteen slots with p + 2 and faults on the seventeenth Call
(41_control_flow.md R104, corner case; sp unchanged by the fault is decision D6, log entry 11). -/
def Obligations.CallToItselfOverflowsOnTheSeventeenth : Prop :=
  ∀ (s : State) (addr : AddrField), s.status = .running → FetchesWord s (0x2#4 ++ addr) → addr.toNat = s.pc.toNat →
    s.sp.val = 0 →
    (runFor 16 s).status = .running ∧ (runFor 16 s).sp.val = 16 ∧
    FaultedFor .stackOverflow (runFor 17 s) ∧ (runFor 17 s).sp.val = 16 ∧
    (runFor 17 s).pc.toNat = s.pc.toNat + 2 ∧ ∀ j, ((runFor 17 s).slot j).toNat = s.pc.toNat + 2

/- Comparison (42_comparison.md) -/

/-- R120. -/
def Obligations.SkipEqualImmediateComparesTheRegister : Prop :=
  ∀ (x : RegIndex) (kk : Byte) (s : State), decode (0x3#4 ++ x ++ kk) = .instr (.skipEqualImmediate x kk) ∧
    ∃ t, exec (.skipEqualImmediate x kk) s = .next t ∧
      (s.reg x = kk → t.pc = s.pc + 2#16) ∧ (s.reg x ≠ kk → t.pc = s.pc) ∧ SameButPc s t

/-- R121: the condition of R120 inverted, so exactly one of the two skips. -/
def Obligations.SkipNotEqualImmediateIsTheInverse : Prop :=
  ∀ (x : RegIndex) (kk : Byte) (s : State), decode (0x4#4 ++ x ++ kk) = .instr (.skipNotEqualImmediate x kk) ∧
    (∃ t, exec (.skipNotEqualImmediate x kk) s = .next t ∧
      (s.reg x ≠ kk → t.pc = s.pc + 2#16) ∧ (s.reg x = kk → t.pc = s.pc) ∧ SameButPc s t) ∧
    ∃ t u, exec (.skipEqualImmediate x kk) s = .next t ∧ exec (.skipNotEqualImmediate x kk) s = .next u ∧
      (t.pc = s.pc + 2#16 ∧ u.pc = s.pc ∨ t.pc = s.pc ∧ u.pc = s.pc + 2#16)

/-- R122, with x = y always skipping. -/
def Obligations.SkipEqualRegistersComparesTwoRegisters : Prop :=
  ∀ (x y : RegIndex) (s : State), decode (0x5#4 ++ x ++ y ++ 0x0#4) = .instr (.skipEqualRegisters x y) ∧
    ∃ t, exec (.skipEqualRegisters x y) s = .next t ∧
      (s.reg x = s.reg y → t.pc = s.pc + 2#16) ∧ (s.reg x ≠ s.reg y → t.pc = s.pc) ∧
      (x = y → t.pc = s.pc + 2#16) ∧ SameButPc s t

/-- R123: a step of a skip whose condition holds advances pc by exactly 4, and by exactly 2 otherwise, with no wrap,
whatever word is skipped. -/
def Obligations.SkipAdvancesThePcByFourOrTwo : Prop :=
  ∀ (s : State) (x y : RegIndex) (kk : Byte), s.status = .running →
    (FetchesWord s (0x3#4 ++ x ++ kk) →
      ∃ t, step s = .next t ∧ t.status = .running ∧ t.pc.toNat = s.pc.toNat + if s.reg x = kk then 4 else 2) ∧
    (FetchesWord s (0x4#4 ++ x ++ kk) →
      ∃ t, step s = .next t ∧ t.status = .running ∧ t.pc.toNat = s.pc.toNat + if s.reg x ≠ kk then 4 else 2) ∧
    (FetchesWord s (0x5#4 ++ x ++ y ++ 0x0#4) →
      ∃ t, step s = .next t ∧ t.status = .running ∧ t.pc.toNat = s.pc.toNat + if s.reg x = s.reg y then 4 else 2)

/- Load, arithmetic and logic (43_alu.md) -/

/-- R140: V[x] is the byte, VF included as a destination, and nothing else changes. -/
def Obligations.LoadImmediateWritesItsRegisterOnly : Prop :=
  ∀ (x : RegIndex) (kk : Byte) (s : State), decode (0x6#4 ++ x ++ kk) = .instr (.loadImmediate x kk) ∧
    ∃ t, exec (.loadImmediate x kk) s = .next t ∧ t.reg x = kk ∧ (∀ r, r ≠ x → t.reg r = s.reg r) ∧ SameButRegs s t

/-- R141: V[x] is the sum modulo 256 and nothing else changes, VF included where it is not the destination. -/
def Obligations.AddImmediateWrapsAndWritesNoFlag : Prop :=
  ∀ (x : RegIndex) (kk : Byte) (s : State), decode (0x7#4 ++ x ++ kk) = .instr (.addImmediate x kk) ∧
    ∃ t, exec (.addImmediate x kk) s = .next t ∧ (t.reg x).toNat = ((s.reg x).toNat + kk.toNat) % 256 ∧
      (∀ r, r ≠ x → t.reg r = s.reg r) ∧ SameButRegs s t

/-- R142: V[x] is V[y] and nothing else changes. -/
def Obligations.MoveCopiesTheRegister : Prop :=
  ∀ (x y : RegIndex) (s : State), decode (0x8#4 ++ x ++ y ++ 0x0#4) = .instr (.move x y) ∧
    ∃ t, exec (.move x y) s = .next t ∧ t.reg x = s.reg y ∧ (∀ r, r ≠ x → t.reg r = s.reg r) ∧ SameButRegs s t

/-- R143 to R145: V[x] is the bitwise OR, AND or XOR, and nothing else changes: VF is not reset. -/
def Obligations.LogicIsBitwiseAndWritesNoFlag : Prop :=
  ∀ (x y : RegIndex) (s : State),
    decode (0x8#4 ++ x ++ y ++ 0x1#4) = .instr (.orRegisters x y) ∧
    decode (0x8#4 ++ x ++ y ++ 0x2#4) = .instr (.andRegisters x y) ∧
    decode (0x8#4 ++ x ++ y ++ 0x3#4) = .instr (.xorRegisters x y) ∧
    (∃ t, exec (.orRegisters x y) s = .next t ∧
      (∀ b < 8, (t.reg x).getLsbD b = ((s.reg x).getLsbD b || (s.reg y).getLsbD b)) ∧
      (∀ r, r ≠ x → t.reg r = s.reg r) ∧ SameButRegs s t) ∧
    (∃ t, exec (.andRegisters x y) s = .next t ∧
      (∀ b < 8, (t.reg x).getLsbD b = ((s.reg x).getLsbD b && (s.reg y).getLsbD b)) ∧
      (∀ r, r ≠ x → t.reg r = s.reg r) ∧ SameButRegs s t) ∧
    (∃ t, exec (.xorRegisters x y) s = .next t ∧
      (∀ b < 8, (t.reg x).getLsbD b = Bool.xor ((s.reg x).getLsbD b) ((s.reg y).getLsbD b)) ∧
      (∀ r, r ≠ x → t.reg r = s.reg r) ∧ SameButRegs s t)

/-- AddRegisters (43_alu.md R146): the sum modulo 256 in V[x] and the carry in VF; that VF keeps the carry when x = 0xF
is decision D7, log entry 12, the spec's reading. -/
def Obligations.AddRegistersSetsTheSumAndTheCarry : Prop :=
  ∀ (x y : RegIndex) (s : State), decode (0x8#4 ++ x ++ y ++ 0x4#4) = .instr (.addRegisters x y) ∧
    ∃ t, exec (.addRegisters x y) s = .next t ∧
      (x ≠ 0xF#4 → (t.reg x).toNat = ((s.reg x).toNat + (s.reg y).toNat) % 256) ∧
      (t.reg 0xF#4).toNat = (if (s.reg x).toNat + (s.reg y).toNat > 255 then 1 else 0) ∧
      (∀ r, r ≠ x → r ≠ 0xF#4 → t.reg r = s.reg r) ∧ SameButRegs s t

/- Whole-machine rules (10_state.md, 20_memory.md) -/

/-- R22: with VF as destination, the load, arithmetic and logic instructions complete and write it their result, as they
do any register; AddRegisters overwrites it with the carry whatever its operands; nothing else writes it. -/
def Obligations.OnlyAddRegistersWritesVFImplicitly : Prop :=
  (∀ (kk : Byte) (y : RegIndex) (s : State),
    (∃ t, exec (.loadImmediate 0xF#4 kk) s = .next t ∧ t.reg 0xF#4 = kk) ∧
    (∃ t, exec (.addImmediate 0xF#4 kk) s = .next t ∧
      (t.reg 0xF#4).toNat = ((s.reg 0xF#4).toNat + kk.toNat) % 256) ∧
    (∃ t, exec (.move 0xF#4 y) s = .next t ∧ t.reg 0xF#4 = s.reg y) ∧
    (∃ t, exec (.orRegisters 0xF#4 y) s = .next t ∧ t.reg 0xF#4 = s.reg 0xF#4 ||| s.reg y) ∧
    (∃ t, exec (.andRegisters 0xF#4 y) s = .next t ∧ t.reg 0xF#4 = s.reg 0xF#4 &&& s.reg y) ∧
    (∃ t, exec (.xorRegisters 0xF#4 y) s = .next t ∧ t.reg 0xF#4 = s.reg 0xF#4 ^^^ s.reg y)) ∧
  (∀ (i : Instr) (s t : State), exec i s = .next t → t.reg 0xF#4 ≠ s.reg 0xF#4 →
    (∃ x y, i = .addRegisters x y) ∨ (∃ kk, i = .loadImmediate 0xF#4 kk ∨ i = .addImmediate 0xF#4 kk) ∨
    (∃ y, i = .move 0xF#4 y ∨ i = .orRegisters 0xF#4 y ∨ i = .andRegisters 0xF#4 y ∨ i = .xorRegisters 0xF#4 y)) ∧
  (∀ (x y : RegIndex) (s t : State), exec (.addRegisters x y) s = .next t →
    (t.reg 0xF#4 = 1#8 ∧ (s.reg x).toNat + (s.reg y).toNat > 255) ∨
    (t.reg 0xF#4 = 0#8 ∧ (s.reg x).toNat + (s.reg y).toNat ≤ 255))

/-- No instruction writes a register outside its row of the table of 10_state.md R21, which the spec derives. -/
def Obligations.RegistersWrittenAreThoseOfTheTable : Prop :=
  ∀ (i : Instr) (s : State), ∃ t, exec i s = .next t ∧ ∀ r, writesReg i r = false → t.reg r = s.reg r

/-- No instruction reads a register outside its row of the table of 10_state.md R21, which the spec derives: two states
that differ only in registers it does not read are left alike but for registers it does not write. Where a stack fault is
raised, that the two records agree also in the parts the spec leaves unspecified (K7, D15) is the model's own: free values
at a draw counter the two states share (DESIGN CHOICE, log entry 1). -/
def Obligations.RegistersReadAreThoseOfTheTable : Prop :=
  ∀ (i : Instr) (s : State) (vs : Vector Byte 16),
    (∀ r, readsReg i r = true → ({ s with regs := vs } : State).reg r = s.reg r) →
    ∃ t u, exec i s = .next t ∧ exec i { s with regs := vs } = .next u ∧ u.pc = t.pc ∧ SameStack t u ∧
      SameMemory t u ∧ SameRun t u ∧ ∀ r, writesReg i r = true → u.reg r = t.reg r

/-- No instruction loads from memory or stores to it, and the words that would are unimplemented (20_memory.md R42): every
instruction acts alike whatever memory holds and leaves every byte as it was, as does every step. Where a stack fault is
raised, that the outcomes agree also in the record's parts the spec leaves unspecified (K7, D15) and in the draw counter
is the model's own (DESIGN CHOICE, log entry 1). -/
def Obligations.MemoryIsNeitherLoadedNorStored : Prop :=
  (∀ (i : Instr) (s : State) (m : Memory), ∃ t, exec i s = .next t ∧ SameMemory s t ∧
    exec i { s with mem := m } = .next { t with mem := m }) ∧
  (∀ s t : State, step s = .next t → SameMemory s t) ∧
  (∀ w : Opcode, w.toNat / 4096 = 0xA ∨ w.toNat / 4096 = 0xD ∨ w.toNat / 4096 = 0xF → decode w = .unimplementedOpcode w)

/-- No instruction but Call and Return reads or writes the call stack or sp (10_state.md R28, R29; 20_memory.md R41). -/
def Obligations.OnlyCallAndReturnReachTheCallStack : Prop :=
  ∀ (i : Instr) (s : State) (slots : Vector Addr 16) (n : Fin 17), i ≠ .ret → (∀ addr, i ≠ .call addr) →
    ∃ t, exec i s = .next t ∧ SameStack s t ∧
      exec i { s with stack := slots, sp := n } = .next { t with stack := slots, sp := n }

/-- No instruction reads status or the fault record (10_state.md R34): two states that differ only in them are left with
the same registers, pc, call stack and memory. -/
def Obligations.StatusAndFaultRecordAreReadByNoInstruction : Prop :=
  ∀ (i : Instr) (s : State) (st : Status) (f : Option FaultRecord),
    ∃ t u, exec i s = .next t ∧ exec i { s with status := st, fault := f } = .next u ∧ u.pc = t.pc ∧ SameCpuButPc t u

/-- A step leaves a pc above 4098 only where it found one: by a fetch out of bounds, which leaves pc, or by a Return,
whose pc is a slot's 16 bits (10_state.md R25, which the spec derives). -/
def Obligations.PcAfterAStepIsBounded : Prop :=
  ∀ s t : State, step s = .next t →
    t.pc.toNat ≤ 4098 ∨ (4095 ≤ s.pc.toNat ∧ t.pc = s.pc) ∨
    (FetchesWord s 0x00EE#16 ∧ ∃ j : Fin 16, j.val + 1 = s.sp.val ∧ t.pc = s.slot j)

/-- Every step keeps the invariant of the block: slots at most 4096, pc at most 4098 and a valid record whenever Faulted
(10_state.md R25, R32; 41_control_flow.md R104), and canonical memory, a clause that is the model's own (DESIGN CHOICE,
log entry 2). -/
def Obligations.EveryStepKeepsTheBlockInvariant : Prop :=
  ∀ s t : State, Inv s → step s = .next t → Inv t

/-- The state after Initialize meets the invariant: pc, slots and memory are zero (10_state.md R35). That it is not Faulted
is decision D18 (log entry 16, the spec's own), and that memory is canonical is the model's own clause (DESIGN CHOICE,
log entry 2). -/
def Obligations.ResetMeetsTheBlockInvariant : Prop := Inv State.reset

/-- While the block runs memory is constant: every state that steps lead to reads as the first at every address
(20_memory.md R49, which the spec derives). -/
def Obligations.MemoryIsConstantDuringARun : Prop :=
  (∀ s t : State, Reaches s t → SameMemory s t) ∧ (∀ (n : Nat) (s : State), SameMemory s (runFor n s))

/- Reset and the host (70_reset_and_hazards.md) -/

/-- Initialize gives every field the value of 10_state.md R35 (70_reset_and_hazards.md R205). From any state: that a Running
one stopped between two steps is included is the model's reading (DEDUCED, log entry 5). Idle and no valid fault are
decision D18, log entry 16, the spec's own. -/
def Obligations.InitializeZeroesEveryField : Prop :=
  ∀ s : State, (∀ r, (hostInitialize s).reg r = 0#8) ∧ (hostInitialize s).pc = 0#16 ∧
    (∀ a, Memory.byteAt (hostInitialize s).mem a = 0#8) ∧ (∀ j, (hostInitialize s).slot j = 0#16) ∧
    (hostInitialize s).sp.val = 0 ∧ (hostInitialize s).status = .idle ∧ hostReadFault (hostInitialize s) = none ∧
    (hostInitialize State.reset = State.reset)

/-- HostWriteMem writes one byte and leaves everything else alone (70_reset_and_hazards.md R206); the refusal of other
arguments is decision D10, log entry 14, the spec's own. That memory is canonical before and after is the model's own
form (DESIGN CHOICE, log entry 2). -/
def Obligations.HostWriteMemWritesOneByte : Prop :=
  ∀ (s : State) (a v : Nat), Memory.wf s.mem = true →
    (a ≤ 4095 → v ≤ 255 → s.status ≠ .running → ∃ t, hostWriteMem a v s = .next t ∧
      (Memory.byteAt t.mem a).toNat = v ∧ (∀ b, b ≠ a → Memory.byteAt t.mem b = Memory.byteAt s.mem b) ∧
      Memory.wf t.mem = true ∧ t.pc = s.pc ∧ SameRegs s t ∧ SameStack s t ∧ SameRun s t) ∧
    (4095 < a ∨ 255 < v ∨ s.status = .running → ∃ r, hostWriteMem a v s = .refused r)

/-- HostWriteReg writes one register, and only while status is not Running (70_reset_and_hazards.md R207); the refusal of
other arguments is decision D10, log entry 14, the spec's own. -/
def Obligations.HostWriteRegWritesOneRegister : Prop :=
  ∀ (s : State) (i v : Nat),
    (i ≤ 15 → v ≤ 255 → s.status ≠ .running → ∃ t, hostWriteReg i v s = .next t ∧
      (∀ r, r.toNat = i → (t.reg r).toNat = v) ∧ (∀ r, r.toNat ≠ i → t.reg r = s.reg r) ∧ SameButRegs s t) ∧
    (15 < i ∨ 255 < v ∨ s.status = .running → ∃ r, hostWriteReg i v s = .refused r)

/-- HostWritePC writes pc alone, and a value above 4094 makes the first step of the next Run raise OutOfBounds
(70_reset_and_hazards.md R208; the refusal of larger values is decision D10, log entry 14, the spec's own). -/
def Obligations.HostWritePCAcceptsEverySixteenBitValue : Prop :=
  ∀ (s : State) (v : Nat),
    (v ≤ 65535 → s.status ≠ .running → ∃ t, hostWritePC v s = .next t ∧ t.pc.toNat = v ∧ SameButPc s t ∧
      (4095 ≤ v → ∃ u, step (startRun t) = .next u ∧ FaultedFor .outOfBounds u)) ∧
    (65535 < v ∨ s.status = .running → ∃ r, hostWritePC v s = .refused r)

/-- An image's k-th word stands at base + 2k, its high byte first, and every byte it does not write stays 0
(70_reset_and_hazards.md R204). The model's own are: the load as one operation (DESIGN CHOICE, log entry 23), canonical
memory (DESIGN CHOICE, log entry 2), and Initialize from every state, a Running one included (DEDUCED, log entry 5). -/
def Obligations.ImageWordsStandDenselyFromTheBase : Prop :=
  ∀ (img : Image) (s : State), img.wellFormed = true →
    ∃ t, hostLoadImage img (hostInitialize s) = .next t ∧
      (∀ (k : Nat) (l : Line), img.lines[k]? = some l →
        Memory.byteAt t.mem (img.base + 2 * k) = l.encoded.extractLsb' 8 8 ∧
        Memory.byteAt t.mem (img.base + 2 * k + 1) = l.encoded.extractLsb' 0 8) ∧
      (∀ a, a < img.base ∨ img.base + 2 * img.lines.length ≤ a → Memory.byteAt t.mem a = 0#8) ∧
      Memory.wf t.mem = true

/-- After the boot sequence of 70_reset_and_hazards.md R203 the next step fetches the image's first word, with the stack
empty and every register zero. That the base is the entry pc is decision D17, log entry 22, the spec's own. The model's
own are: the image written as a whole (DESIGN CHOICE, log entry 23), and the boot from every state, a Running one
included (DEDUCED, log entry 5). -/
def Obligations.BootStartsAtTheFirstWordOfTheImage : Prop :=
  ∀ (base : Nat) (l : Line) (ls : List Line) (s : State), (Image.mk base (l :: ls)).wellFormed = true →
    ∃ t, boot ⟨base, l :: ls⟩ s = .next t ∧ t.status = .running ∧ t.pc.toNat = base ∧ FetchesWord t l.encoded ∧
      t.sp.val = 0 ∧ ∀ r, t.reg r = 0#8

/-- A Run after Halt at p resumes at p + 2 with CPU State as it stands (70_reset_and_hazards.md R216: decisions D4,
log entry 9, and D11, log entry 15, the spec's own). -/
def Obligations.RunAfterHaltResumesBehindIt : Prop :=
  ∀ s : State, s.status = .running → FetchesWord s 0x0000#16 →
    ∃ t, step s = .next t ∧ (startRun t).status = .running ∧ (startRun t).pc.toNat = s.pc.toNat + 2 ∧
      SameCpuButPc s (startRun t)

/-- A Run that a step count stops while still Running (40_fetch_execute.md R95) has completed that many steps, and
continued from there, by Run or by a further bound, it ends where the Run without the stop ends (70_reset_and_hazards.md
R210): decision D20, log entry 18, the spec's own. -/
def Obligations.BoundedRunsCompose : Prop :=
  ∀ (m : Nat) (s : State), s.status = .running → (runFor m s).status = .running →
    Host.Core.run core m s = .next (runFor m s) ∧
    (∀ t, RunReturns (runFor m s) t ↔ RunReturns s t) ∧
    ∀ n, runFor (m + n) s = runFor n (runFor m s)

/-- Terminal states are absorbing (40_fetch_execute.md R91): a run that has become Halted or Faulted stays where it is, and
one that has met a fatal condition is never safe again. -/
def Obligations.TerminalStatesAreAbsorbing : Prop :=
  ∀ (m n : Nat) (s : State), ((runFor m s).status.isTerminal = true → runFor (m + n) s = runFor m s) ∧
    (¬ SafeFor m s → ¬ SafeFor (m + n) s)

/-- A Run has at most one end state, and ends only Halted or Faulted (40_fetch_execute.md R94). That the end is one also in
the parts of a fault record the spec leaves unspecified (K7, D15) is the model's own (DESIGN CHOICE, log entry 1). -/
def Obligations.RunEndsInOneTerminalState : Prop :=
  ∀ s t u : State, RunReturns s t → RunReturns s u →
    t = u ∧ (t.status = .halted ∨ t.status = .faulted)

/-- The model's own form of memory (DESIGN CHOICE, log entry 2): canonical memories that read alike at every address are
the same data. -/
def Obligations.CanonicalMemoriesAreEqualData : Prop :=
  ∀ m n : Memory, Memory.wf m = true → Memory.wf n = true → (∀ a, Memory.byteAt m a = Memory.byteAt n a) → m = n
end

