-- ==== Sys2Proof/Laws/Decode.lean ====
section
/-! SUPPORT. The masks, fields and encodings of the opcode map as plain arithmetic on the word's number, so that facts
about decoding close by linear arithmetic. -/

namespace Sys2Proof

variable (w : Opcode)

theorem fieldX_toNat : (fieldX w).toNat = w.toNat / 256 % 16 := by
  simp [fieldX, BitVec.extractLsb'_toNat, Nat.shiftRight_eq_div_pow]

theorem fieldY_toNat : (fieldY w).toNat = w.toNat / 16 % 16 := by
  simp [fieldY, BitVec.extractLsb'_toNat, Nat.shiftRight_eq_div_pow]

theorem fieldKK_toNat : (fieldKK w).toNat = w.toNat % 256 := by
  simp [fieldKK, BitVec.extractLsb'_toNat]

theorem fieldN_toNat : (fieldN w).toNat = w.toNat % 16 := by
  simp [fieldN, BitVec.extractLsb'_toNat]

theorem fieldAddr_toNat : (fieldAddr w).toNat = w.toNat % 4096 := by
  simp [fieldAddr, BitVec.extractLsb'_toNat]

/-- The mask 0xF000 keeps the top nibble. -/
theorem and_family_toNat : (w &&& 0xF000#16).toNat = w.toNat / 4096 * 4096 := by
  have h : w &&& 0xF000#16 = (w >>> 12) <<< 12 := by
    apply BitVec.eq_of_getLsbD_eq
    intro i hi
    interval_cases i <;> simp
  have := w.isLt
  rw [h, BitVec.toNat_shiftLeft, BitVec.toNat_ushiftRight, Nat.shiftLeft_eq, Nat.shiftRight_eq_div_pow]
  omega

/-- The mask 0x000F keeps op_minor. -/
theorem and_minor_toNat : (w &&& 0x000F#16).toNat = w.toNat % 16 := by
  rw [BitVec.toNat_and]
  exact Nat.and_two_pow_sub_one_eq_mod w.toNat 4

/-- The mask 0xF00F keeps the top nibble and op_minor. -/
theorem and_familyMinor_toNat : (w &&& 0xF00F#16).toNat = w.toNat / 4096 * 4096 + w.toNat % 16 := by
  have h : w &&& 0xF00F#16 = (w &&& 0xF000#16) + (w &&& 0x000F#16) := by
    rw [BitVec.add_eq_or_of_and_eq_zero]
    · apply BitVec.eq_of_getLsbD_eq
      intro i hi
      interval_cases i <;> simp
    · apply BitVec.eq_of_getLsbD_eq
      intro i hi
      interval_cases i <;> simp
  have := w.isLt
  rw [h, BitVec.toNat_add, and_family_toNat, and_minor_toNat]
  omega

/-- The mask 0xFFFF fixes the whole word. -/
theorem selects_word (p : Opcode) : selects 0xFFFF#16 p w = true ↔ w.toNat = p.toNat := by
  have h : w &&& 0xFFFF#16 = w := BitVec.and_allOnes
  rw [selects, h, beq_iff_eq, BitVec.toNat_inj]

theorem selects_family (p : Opcode) : selects 0xF000#16 p w = true ↔ w.toNat / 4096 * 4096 = p.toNat := by
  rw [selects, beq_iff_eq, ← BitVec.toNat_inj, and_family_toNat]

theorem selects_familyMinor (p : Opcode) :
    selects 0xF00F#16 p w = true ↔ w.toNat / 4096 * 4096 + w.toNat % 16 = p.toNat := by
  rw [selects, beq_iff_eq, ← BitVec.toNat_inj, and_familyMinor_toNat]

/-- A row that fixes the family alone selects the words of that family. -/
theorem family_iff {p : Opcode} {n : Nat} (hp : p.toNat = n * 4096) :
    selects 0xF000#16 p w = true ↔ w.toNat / 4096 = n := by
  rw [selects_family, hp]; omega

/-- A row that fixes the family and op_minor selects the words with both. -/
theorem familyMinor_iff {p : Opcode} {n k : Nat} (hp : p.toNat = n * 4096 + k) (hk : k < 16) :
    selects 0xF00F#16 p w = true ↔ w.toNat / 4096 = n ∧ w.toNat % 16 = k := by
  rw [selects_familyMinor, hp]; omega

/-- The encoding of an instruction as a number: the family, the fields and op_minor in their places (R60, R66). -/
def encodeNat : Instr → Nat
  | .halt => 0
  | .clearScreen => 0x00E0
  | .ret => 0x00EE
  | .jump addr => 0x1000 + addr.toNat
  | .call addr => 0x2000 + addr.toNat
  | .skipEqualImmediate x kk => 0x3000 + x.toNat * 256 + kk.toNat
  | .skipNotEqualImmediate x kk => 0x4000 + x.toNat * 256 + kk.toNat
  | .skipEqualRegisters x y => 0x5000 + x.toNat * 256 + y.toNat * 16
  | .loadImmediate x kk => 0x6000 + x.toNat * 256 + kk.toNat
  | .addImmediate x kk => 0x7000 + x.toNat * 256 + kk.toNat
  | .move x y => 0x8000 + x.toNat * 256 + y.toNat * 16
  | .orRegisters x y => 0x8001 + x.toNat * 256 + y.toNat * 16
  | .andRegisters x y => 0x8002 + x.toNat * 256 + y.toNat * 16
  | .xorRegisters x y => 0x8003 + x.toNat * 256 + y.toNat * 16
  | .addRegisters x y => 0x8004 + x.toNat * 256 + y.toNat * 16

/-- Joining fields adds the upper one, scaled. -/
theorem toNat_append {m n : Nat} (a : BitVec m) (b : BitVec n) : (a ++ b).toNat = 2 ^ n * a.toNat + b.toNat := by
  rw [BitVec.toNat_append, Nat.shiftLeft_eq, Nat.mul_comm, ← Nat.two_pow_add_eq_or_of_lt b.isLt]

theorem append_A_toNat (f : BitVec 4) (addr : AddrField) :
    (f ++ addr : BitVec 16).toNat = f.toNat * 4096 + addr.toNat := by
  rw [toNat_append]; omega

theorem append_XK_toNat (f : BitVec 4) (x : RegIndex) (kk : Byte) :
    (f ++ x ++ kk : BitVec 16).toNat = f.toNat * 4096 + x.toNat * 256 + kk.toNat := by
  rw [toNat_append, toNat_append]; omega

theorem append_XY_toNat (f : BitVec 4) (x y : RegIndex) (n : BitVec 4) :
    (f ++ x ++ y ++ n : BitVec 16).toNat = f.toNat * 4096 + x.toNat * 256 + y.toNat * 16 + n.toNat := by
  rw [toNat_append, toNat_append, toNat_append]; omega

theorem encode_toNat (i : Instr) : (encode i).toNat = encodeNat i := by
  cases i <;> simp only [encode, encodeNat, append_A_toNat, append_XK_toNat, append_XY_toNat] <;> simp <;> omega

/-- The decoder with each mask test as arithmetic on the word's number. -/
theorem decode_eq_arith : decode w =
    if w.toNat = 0 then .instr .halt
    else if w.toNat = 0x00E0 then .instr .clearScreen
    else if w.toNat = 0x00EE then .instr .ret
    else if w.toNat / 4096 = 1 then .instr (.jump (fieldAddr w))
    else if w.toNat / 4096 = 2 then .instr (.call (fieldAddr w))
    else if w.toNat / 4096 = 3 then .instr (.skipEqualImmediate (fieldX w) (fieldKK w))
    else if w.toNat / 4096 = 4 then .instr (.skipNotEqualImmediate (fieldX w) (fieldKK w))
    else if w.toNat / 4096 = 5 ∧ w.toNat % 16 = 0 then .instr (.skipEqualRegisters (fieldX w) (fieldY w))
    else if w.toNat / 4096 = 6 then .instr (.loadImmediate (fieldX w) (fieldKK w))
    else if w.toNat / 4096 = 7 then .instr (.addImmediate (fieldX w) (fieldKK w))
    else if w.toNat / 4096 = 8 ∧ w.toNat % 16 = 0 then .instr (.move (fieldX w) (fieldY w))
    else if w.toNat / 4096 = 8 ∧ w.toNat % 16 = 1 then .instr (.orRegisters (fieldX w) (fieldY w))
    else if w.toNat / 4096 = 8 ∧ w.toNat % 16 = 2 then .instr (.andRegisters (fieldX w) (fieldY w))
    else if w.toNat / 4096 = 8 ∧ w.toNat % 16 = 3 then .instr (.xorRegisters (fieldX w) (fieldY w))
    else if w.toNat / 4096 = 8 ∧ w.toNat % 16 = 4 then .instr (.addRegisters (fieldX w) (fieldY w))
    else .unimplementedOpcode w := by
  simp only [decode, selects_word, family_iff w (p := 0x1000#16) (n := 1) rfl, family_iff w (p := 0x2000#16) (n := 2) rfl,
    family_iff w (p := 0x3000#16) (n := 3) rfl, family_iff w (p := 0x4000#16) (n := 4) rfl,
    familyMinor_iff w (p := 0x5000#16) (n := 5) (k := 0) rfl (by decide),
    family_iff w (p := 0x6000#16) (n := 6) rfl, family_iff w (p := 0x7000#16) (n := 7) rfl,
    familyMinor_iff w (p := 0x8000#16) (n := 8) (k := 0) rfl (by decide),
    familyMinor_iff w (p := 0x8001#16) (n := 8) (k := 1) rfl (by decide),
    familyMinor_iff w (p := 0x8002#16) (n := 8) (k := 2) rfl (by decide),
    familyMinor_iff w (p := 0x8003#16) (n := 8) (k := 3) rfl (by decide),
    familyMinor_iff w (p := 0x8004#16) (n := 8) (k := 4) rfl (by decide), BitVec.reduceToNat]

/-- Everything the decoder can answer: a row of the opcode map with the numbers that select it, or the rejection of a
word that no row selects. -/
theorem decode_cases :
    (w.toNat = 0 ∧ decode w = .instr .halt) ∨
    (w.toNat = 0x00E0 ∧ decode w = .instr .clearScreen) ∨
    (w.toNat = 0x00EE ∧ decode w = .instr .ret) ∨
    (w.toNat / 4096 = 1 ∧ decode w = .instr (.jump (fieldAddr w))) ∨
    (w.toNat / 4096 = 2 ∧ decode w = .instr (.call (fieldAddr w))) ∨
    (w.toNat / 4096 = 3 ∧ decode w = .instr (.skipEqualImmediate (fieldX w) (fieldKK w))) ∨
    (w.toNat / 4096 = 4 ∧ decode w = .instr (.skipNotEqualImmediate (fieldX w) (fieldKK w))) ∨
    ((w.toNat / 4096 = 5 ∧ w.toNat % 16 = 0) ∧ decode w = .instr (.skipEqualRegisters (fieldX w) (fieldY w))) ∨
    (w.toNat / 4096 = 6 ∧ decode w = .instr (.loadImmediate (fieldX w) (fieldKK w))) ∨
    (w.toNat / 4096 = 7 ∧ decode w = .instr (.addImmediate (fieldX w) (fieldKK w))) ∨
    ((w.toNat / 4096 = 8 ∧ w.toNat % 16 = 0) ∧ decode w = .instr (.move (fieldX w) (fieldY w))) ∨
    ((w.toNat / 4096 = 8 ∧ w.toNat % 16 = 1) ∧ decode w = .instr (.orRegisters (fieldX w) (fieldY w))) ∨
    ((w.toNat / 4096 = 8 ∧ w.toNat % 16 = 2) ∧ decode w = .instr (.andRegisters (fieldX w) (fieldY w))) ∨
    ((w.toNat / 4096 = 8 ∧ w.toNat % 16 = 3) ∧ decode w = .instr (.xorRegisters (fieldX w) (fieldY w))) ∨
    ((w.toNat / 4096 = 8 ∧ w.toNat % 16 = 4) ∧ decode w = .instr (.addRegisters (fieldX w) (fieldY w))) ∨
    (w.toNat ≠ 0 ∧ w.toNat ≠ 0x00E0 ∧ w.toNat ≠ 0x00EE ∧
      (w.toNat / 4096 = 0 ∨ 9 ≤ w.toNat / 4096 ∨ (w.toNat / 4096 = 5 ∧ w.toNat % 16 ≠ 0) ∨
        (w.toNat / 4096 = 8 ∧ 5 ≤ w.toNat % 16)) ∧
      decode w = .unimplementedOpcode w) := by
  rw [decode_eq_arith]
  by_cases h0 : w.toNat = 0
  · exact .inl ⟨h0, if_pos h0⟩
  rw [if_neg h0]
  right
  by_cases h1 : w.toNat = 0x00E0
  · exact .inl ⟨h1, if_pos h1⟩
  rw [if_neg h1]
  right
  by_cases h2 : w.toNat = 0x00EE
  · exact .inl ⟨h2, if_pos h2⟩
  rw [if_neg h2]
  right
  by_cases h3 : w.toNat / 4096 = 1
  · exact .inl ⟨h3, if_pos h3⟩
  rw [if_neg h3]
  right
  by_cases h4 : w.toNat / 4096 = 2
  · exact .inl ⟨h4, if_pos h4⟩
  rw [if_neg h4]
  right
  by_cases h5 : w.toNat / 4096 = 3
  · exact .inl ⟨h5, if_pos h5⟩
  rw [if_neg h5]
  right
  by_cases h6 : w.toNat / 4096 = 4
  · exact .inl ⟨h6, if_pos h6⟩
  rw [if_neg h6]
  right
  by_cases h7 : w.toNat / 4096 = 5 ∧ w.toNat % 16 = 0
  · exact .inl ⟨h7, if_pos h7⟩
  rw [if_neg h7]
  right
  by_cases h8 : w.toNat / 4096 = 6
  · exact .inl ⟨h8, if_pos h8⟩
  rw [if_neg h8]
  right
  by_cases h9 : w.toNat / 4096 = 7
  · exact .inl ⟨h9, if_pos h9⟩
  rw [if_neg h9]
  right
  by_cases h10 : w.toNat / 4096 = 8 ∧ w.toNat % 16 = 0
  · exact .inl ⟨h10, if_pos h10⟩
  rw [if_neg h10]
  right
  by_cases h11 : w.toNat / 4096 = 8 ∧ w.toNat % 16 = 1
  · exact .inl ⟨h11, if_pos h11⟩
  rw [if_neg h11]
  right
  by_cases h12 : w.toNat / 4096 = 8 ∧ w.toNat % 16 = 2
  · exact .inl ⟨h12, if_pos h12⟩
  rw [if_neg h12]
  right
  by_cases h13 : w.toNat / 4096 = 8 ∧ w.toNat % 16 = 3
  · exact .inl ⟨h13, if_pos h13⟩
  rw [if_neg h13]
  right
  by_cases h14 : w.toNat / 4096 = 8 ∧ w.toNat % 16 = 4
  · exact .inl ⟨h14, if_pos h14⟩
  rw [if_neg h14]
  right
  exact ⟨h0, h1, h2, by omega, rfl⟩

end Sys2Proof
end

