-- ==== Sys2Proof/Laws/Memory.lean ====
section
/-! SUPPORT. The laws of memory: a read after a write, the canonical form kept by every operation, and equal canonical
memories being equal data. -/

namespace Sys2Proof.Machine

@[simp] theorem byteAt_nil (a : Nat) : Memory.byteAt [] a = unlistedByte := rfl

@[simp] theorem byteAt_cons (k : Nat) (v : Byte) (m : Memory) (a : Nat) :
    Memory.byteAt ((k, v) :: m) a = if k = a then v else Memory.byteAt m a := rfl

/-- A canonical memory lists nothing below its bound. -/
theorem byteAt_of_lt_lo {lo a : Nat} {m : Memory} (h : Memory.wfFrom lo m = true) (ha : a < lo) :
    Memory.byteAt m a = unlistedByte := by
  induction m generalizing lo with
  | nil => rfl
  | cons c m ih =>
    obtain ⟨k, v⟩ := c
    simp only [Memory.wfFrom, Bool.and_eq_true, decide_eq_true_eq] at h
    rw [byteAt_cons, if_neg (by omega)]
    exact ih h.2 (by omega)

/-- A canonical memory is canonical from any lower bound. -/
theorem wfFrom_mono {lo lo' : Nat} {m : Memory} (h : Memory.wfFrom lo m = true) (hle : lo' ≤ lo) :
    Memory.wfFrom lo' m = true := by
  cases m with
  | nil => rfl
  | cons c m =>
    obtain ⟨k, v⟩ := c
    simp only [Memory.wfFrom, Bool.and_eq_true, decide_eq_true_eq] at h ⊢
    exact ⟨⟨⟨by omega, h.1.1.2⟩, h.1.2⟩, h.2⟩

theorem wfFrom_write {lo a : Nat} {m : Memory} {v : Byte} (h : Memory.wfFrom lo m = true) (hlo : lo ≤ a)
    (ha : a < Config.memSize) : Memory.wfFrom lo (Memory.write m a v) = true := by
  induction m generalizing lo with
  | nil =>
    by_cases hv : v = unlistedByte <;> simp [Memory.write, Memory.wfFrom, hv, hlo, ha]
  | cons c m ih =>
    obtain ⟨k, w⟩ := c
    have h' := h
    simp only [Memory.wfFrom, Bool.and_eq_true, decide_eq_true_eq] at h
    obtain ⟨⟨⟨h1, h2⟩, h3⟩, h4⟩ := h
    rcases Nat.lt_trichotomy a k with hak | rfl | hak
    · by_cases hv : v = unlistedByte
      · simpa [Memory.write, hak, hv] using h'
      · simp only [Memory.write, hak, hv, if_true, if_false, Memory.wfFrom, Bool.and_eq_true, decide_eq_true_eq]
        exact ⟨⟨⟨hlo, ha⟩, hv⟩, ⟨⟨⟨by omega, h2⟩, h3⟩, h4⟩⟩
    · by_cases hv : v = unlistedByte
      · simpa [Memory.write, hv] using wfFrom_mono h4 (by omega)
      · simp only [Memory.write, Nat.lt_irrefl, hv, if_true, if_false, Memory.wfFrom, Bool.and_eq_true,
          decide_eq_true_eq]
        exact ⟨⟨⟨hlo, ha⟩, hv⟩, h4⟩
    · have hlt : ¬ a < k := by omega
      have hne : a ≠ k := by omega
      simp only [Memory.write, hlt, hne, if_false, Memory.wfFrom, Bool.and_eq_true, decide_eq_true_eq]
      exact ⟨⟨⟨h1, h2⟩, h3⟩, ih h4 (by omega)⟩

/-- A write inside memory keeps the canonical form. -/
theorem wf_write {m : Memory} {a : Nat} {v : Byte} (h : Memory.wf m = true) (ha : a < Config.memSize) :
    Memory.wf (Memory.write m a v) = true := wfFrom_write h (Nat.zero_le a) ha

/-- A word stored inside memory keeps the canonical form. -/
theorem wf_storeWord {m : Memory} {a : Nat} {w : Opcode} (h : Memory.wf m = true) (ha : a + 1 < Config.memSize) :
    Memory.wf (storeWord m a w) = true := wf_write (wf_write h (by omega)) ha

theorem byteAt_writeFrom {lo a b : Nat} {m : Memory} {v : Byte} (h : Memory.wfFrom lo m = true) :
    Memory.byteAt (Memory.write m a v) b = if b = a then v else Memory.byteAt m b := by
  induction m generalizing lo with
  | nil =>
    by_cases hv : v = unlistedByte
    · simp [Memory.write, hv]
    · simp [Memory.write, hv, eq_comm]
  | cons c m ih =>
    obtain ⟨k, w⟩ := c
    simp only [Memory.wfFrom, Bool.and_eq_true, decide_eq_true_eq] at h
    obtain ⟨⟨⟨_, _⟩, _⟩, h4⟩ := h
    rcases Nat.lt_trichotomy a k with hak | rfl | hak
    · have hunl : Memory.byteAt m a = unlistedByte := byteAt_of_lt_lo h4 (by omega)
      have hne : k ≠ a := by omega
      by_cases hv : v = unlistedByte
      · by_cases hb : b = a <;> simp [Memory.write, hak, hv, hb, hunl, hne]
      · simp only [Memory.write, hak, hv, if_true, if_false, byteAt_cons]
        by_cases hb : b = a
        · simp [hb]
        · simp [hb, Ne.symm hb]
    · have hunl : Memory.byteAt m a = unlistedByte := byteAt_of_lt_lo h4 (by omega)
      by_cases hv : v = unlistedByte
      · by_cases hb : b = a
        · simp [Memory.write, hv, hb, hunl]
        · simp [Memory.write, hv, hb, Ne.symm hb]
      · by_cases hb : b = a
        · simp [Memory.write, hv, hb]
        · simp [Memory.write, hv, hb, Ne.symm hb]
    · have hlt : ¬ a < k := by omega
      have hne : a ≠ k := by omega
      simp only [Memory.write, hlt, hne, if_false, byteAt_cons, ih h4]
      by_cases hb : b = a
      · simp [hb, Ne.symm hne]
      · simp [hb]

/-- A read after a write to the same address gives the byte written, and a write leaves every other address alone. -/
theorem byteAt_write {m : Memory} {a b : Nat} {v : Byte} (h : Memory.wf m = true) :
    Memory.byteAt (Memory.write m a v) b = if b = a then v else Memory.byteAt m b := byteAt_writeFrom h

/-- A stored word's bytes stand big-endian at its two addresses and no other address changes (R43). -/
theorem byteAt_storeWord {m : Memory} {a b : Nat} {w : Opcode} (h : Memory.wf m = true) (ha : a < Config.memSize) :
    Memory.byteAt (storeWord m a w) b =
      if b = a + 1 then lowByte w else if b = a then highByte w else Memory.byteAt m b := by
  rw [storeWord, byteAt_write (wf_write h ha), byteAt_write h]

/-- Storing lines inside memory keeps the canonical form. -/
theorem wf_storeLines {m : Memory} {a : Nat} {ls : List Line} (h : Memory.wf m = true)
    (ha : a + 2 * ls.length ≤ Config.memSize) : Memory.wf (storeLines m a ls) = true := by
  induction ls generalizing m a with
  | nil => exact h
  | cons l ls ih =>
    simp only [List.length_cons] at ha
    exact ih (wf_storeWord h (by omega)) (by omega)

/-- Storing lines leaves every address outside them alone. -/
theorem byteAt_storeLines_outside {m : Memory} {a b : Nat} {ls : List Line} (h : Memory.wf m = true)
    (ha : a + 2 * ls.length ≤ Config.memSize) (hb : b < a ∨ a + 2 * ls.length ≤ b) :
    Memory.byteAt (storeLines m a ls) b = Memory.byteAt m b := by
  induction ls generalizing m a with
  | nil => rfl
  | cons l ls ih =>
    simp only [List.length_cons] at ha hb
    rw [storeLines, ih (wf_storeWord h (by omega)) (by omega) (by omega), byteAt_storeWord h (by omega),
      if_neg (by omega), if_neg (by omega)]

/-- A write inside memory where the whole window is known: reading memory is decided by `byteAt`. -/
theorem memRead_eq {m : Memory} {a : Nat} (ha : a ≤ Config.lastAddr) : memRead m a = some (Memory.byteAt m a) :=
  if_pos ha

end Sys2Proof.Machine
end

