-- ==== Sys2Proof/Laws/State.lean ====
section
/-! SUPPORT. What each update of the state does to each field, so that no later proof unfolds a record update. -/

namespace Sys2Proof.Machine

variable (s : State)

-- setReg
@[simp] theorem setReg_pc (i : RegIndex) (v : Byte) : (s.setReg i v).pc = s.pc := rfl
@[simp] theorem setReg_mem (i : RegIndex) (v : Byte) : (s.setReg i v).mem = s.mem := rfl
@[simp] theorem setReg_stack (i : RegIndex) (v : Byte) : (s.setReg i v).stack = s.stack := rfl
@[simp] theorem setReg_sp (i : RegIndex) (v : Byte) : (s.setReg i v).sp = s.sp := rfl
@[simp] theorem setReg_status (i : RegIndex) (v : Byte) : (s.setReg i v).status = s.status := rfl
@[simp] theorem setReg_fault (i : RegIndex) (v : Byte) : (s.setReg i v).fault = s.fault := rfl
@[simp] theorem setReg_freeDraws (i : RegIndex) (v : Byte) : (s.setReg i v).freeDraws = s.freeDraws := rfl

/-- A register reads as the last value written to it, and a write leaves every other register alone. -/
@[simp] theorem reg_setReg (i r : RegIndex) (v : Byte) :
    (s.setReg i v).reg r = if r = i then v else s.reg r := by
  have hne : (i.toNat = r.toNat) ↔ r = i := by rw [← BitVec.toNat_inj, eq_comm]
  simp only [State.reg, State.setReg, Vector.getElem_set, hne]

-- setPc
@[simp] theorem setPc_regs (a : Addr) : (s.setPc a).regs = s.regs := rfl
@[simp] theorem setPc_pc (a : Addr) : (s.setPc a).pc = a := rfl
@[simp] theorem setPc_mem (a : Addr) : (s.setPc a).mem = s.mem := rfl
@[simp] theorem setPc_stack (a : Addr) : (s.setPc a).stack = s.stack := rfl
@[simp] theorem setPc_sp (a : Addr) : (s.setPc a).sp = s.sp := rfl
@[simp] theorem setPc_status (a : Addr) : (s.setPc a).status = s.status := rfl
@[simp] theorem setPc_fault (a : Addr) : (s.setPc a).fault = s.fault := rfl
@[simp] theorem setPc_freeDraws (a : Addr) : (s.setPc a).freeDraws = s.freeDraws := rfl

-- advancePc
@[simp] theorem advancePc_regs : s.advancePc.regs = s.regs := rfl
@[simp] theorem advancePc_pc : s.advancePc.pc = s.pc + 2#16 := rfl
@[simp] theorem advancePc_mem : s.advancePc.mem = s.mem := rfl
@[simp] theorem advancePc_stack : s.advancePc.stack = s.stack := rfl
@[simp] theorem advancePc_sp : s.advancePc.sp = s.sp := rfl
@[simp] theorem advancePc_status : s.advancePc.status = s.status := rfl
@[simp] theorem advancePc_fault : s.advancePc.fault = s.fault := rfl
@[simp] theorem advancePc_freeDraws : s.advancePc.freeDraws = s.freeDraws := rfl

-- halt
@[simp] theorem halt_regs : s.halt.regs = s.regs := rfl
@[simp] theorem halt_pc : s.halt.pc = s.pc := rfl
@[simp] theorem halt_mem : s.halt.mem = s.mem := rfl
@[simp] theorem halt_stack : s.halt.stack = s.stack := rfl
@[simp] theorem halt_sp : s.halt.sp = s.sp := rfl
@[simp] theorem halt_status : s.halt.status = .halted := rfl
@[simp] theorem halt_fault : s.halt.fault = s.fault := rfl
@[simp] theorem halt_freeDraws : s.halt.freeDraws = s.freeDraws := rfl

-- raise
variable (reason : FaultReason) (addr : Option Addr) (opcode : Option Opcode)
@[simp] theorem raise_regs : (s.raise reason addr opcode).regs = s.regs := rfl
@[simp] theorem raise_pc : (s.raise reason addr opcode).pc = s.pc := rfl
@[simp] theorem raise_mem : (s.raise reason addr opcode).mem = s.mem := rfl
@[simp] theorem raise_stack : (s.raise reason addr opcode).stack = s.stack := rfl
@[simp] theorem raise_sp : (s.raise reason addr opcode).sp = s.sp := rfl
@[simp] theorem raise_status : (s.raise reason addr opcode).status = .faulted := rfl
@[simp] theorem raise_fault : (s.raise reason addr opcode).fault =
    some ⟨reason, addr.getD (Config.freeFaultAddr s.freeDraws), opcode.getD (Config.freeFaultOpcode s.freeDraws)⟩ := rfl
@[simp] theorem raise_freeDraws : (s.raise reason addr opcode).freeDraws = s.freeDraws + 1 := rfl

-- reading registers and slots after an update that leaves them alone
@[simp] theorem reg_setPc (a : Addr) (r : RegIndex) : (s.setPc a).reg r = s.reg r := rfl
@[simp] theorem reg_advancePc (r : RegIndex) : s.advancePc.reg r = s.reg r := rfl
@[simp] theorem reg_halt (r : RegIndex) : s.halt.reg r = s.reg r := rfl
@[simp] theorem reg_raise (r : RegIndex) : (s.raise reason addr opcode).reg r = s.reg r := rfl
@[simp] theorem slot_setReg (i : RegIndex) (v : Byte) (j : Fin 16) : (s.setReg i v).slot j = s.slot j := rfl
@[simp] theorem slot_setPc (a : Addr) (j : Fin 16) : (s.setPc a).slot j = s.slot j := rfl
@[simp] theorem slot_advancePc (j : Fin 16) : s.advancePc.slot j = s.slot j := rfl
@[simp] theorem slot_halt (j : Fin 16) : s.halt.slot j = s.slot j := rfl
@[simp] theorem slot_raise (j : Fin 16) : (s.raise reason addr opcode).slot j = s.slot j := rfl

/-- After Initialize every register is zero (R35). -/
@[simp] theorem reg_reset (r : RegIndex) : State.reset.reg r = 0#8 := by
  simp [State.reg, State.reset]

/-- After Initialize every slot of the call stack is zero (R35). -/
@[simp] theorem slot_reset (j : Fin 16) : State.reset.slot j = 0#16 := by
  simp [State.slot, State.reset]

end Sys2Proof.Machine
end

