-- ==== Sys2Proof/Laws/Fetch.lean ====
section
/-! SUPPORT. Instruction fetch, the pre-advance and one step: what each can do, said once. -/

namespace Sys2Proof.Machine

variable {s t : State} {w : Opcode}

/-- Joining a word's two bytes big-endian gives the word back. -/
@[simp] theorem bigEndian_bytes (w : Opcode) : bigEndian (highByte w) (lowByte w) = w := by
  simp only [bigEndian, highByte, lowByte]
  apply BitVec.eq_of_getLsbD_eq
  intro i hi
  rw [BitVec.getLsbD_append]
  by_cases h : i < 8
  · simp [h]
  · simp only [h, BitVec.getLsbD_extractLsb']
    simp [show i - 8 < 8 by omega, show 8 + (i - 8) = i by omega]

@[simp] theorem highByte_bigEndian (hi lo : Byte) : highByte (bigEndian hi lo) = hi := by
  apply BitVec.eq_of_getLsbD_eq
  intro i h
  rw [highByte, bigEndian, BitVec.getLsbD_extractLsb', BitVec.getLsbD_append]
  simp [h]

@[simp] theorem lowByte_bigEndian (hi lo : Byte) : lowByte (bigEndian hi lo) = lo := by
  apply BitVec.eq_of_getLsbD_eq
  intro i h
  rw [lowByte, bigEndian, BitVec.getLsbD_extractLsb', BitVec.getLsbD_append]
  simp [h]

/-- The joined word as a number (R43). -/
theorem bigEndian_toNat (hi lo : Byte) : (bigEndian hi lo).toNat = hi.toNat * 256 + lo.toNat := by
  rw [bigEndian, BitVec.toNat_append, Nat.shiftLeft_eq, Nat.mul_comm, ← Nat.two_pow_add_eq_or_of_lt lo.isLt,
    Nat.mul_comm]

/-- Everything a fetch can do: it reads the word at pc, or pc is above 4094 and it reads nothing. -/
theorem fetch_eq_some_iff : s.fetch = some w ↔ FetchesWord s w := by
  unfold State.fetch FetchesWord Fetchable
  by_cases h : s.pc.toNat + 1 > Config.lastAddr
  · simp only [h, if_true]
    constructor
    · intro h'; cases h'
    · intro h'; exact absurd h'.1 (by simp only [Config.lastAddr] at h; omega)
  · rw [if_neg h, Option.some.injEq]
    constructor
    · rintro rfl
      exact ⟨by simp only [Config.lastAddr] at h; omega, (highByte_bigEndian _ _).symm, (lowByte_bigEndian _ _).symm⟩
    · rintro ⟨-, h1, h2⟩
      rw [h1, h2]
      exact bigEndian_bytes w

theorem fetch_eq_none_iff : s.fetch = none ↔ 4095 ≤ s.pc.toNat := by
  unfold State.fetch
  by_cases h : s.pc.toNat + 1 > Config.lastAddr
  · simp only [h, if_true, true_iff]; simp only [Config.lastAddr] at h; omega
  · simp only [h, if_false, reduceCtorEq, false_iff]; simp only [Config.lastAddr] at h; omega

/-- A fetchable pc has a word. -/
theorem exists_fetchesWord (h : Fetchable s) : ∃ w, FetchesWord s w := by
  cases hf : s.fetch with
  | none => exact absurd (fetch_eq_none_iff.1 hf) (by unfold Fetchable at h; omega)
  | some w => exact ⟨w, fetch_eq_some_iff.1 hf⟩

/-- A fetch reads one word only. -/
theorem FetchesWord.unique {v : Opcode} (h : FetchesWord s w) (h' : FetchesWord s v) : w = v :=
  Option.some.inj ((fetch_eq_some_iff.2 h).symm.trans (fetch_eq_some_iff.2 h'))

/-- The pre-advance does not wrap (R82). -/
theorem advance_toNat (h : Fetchable s) : (s.pc + 2#16).toNat = s.pc.toNat + 2 := by
  unfold Fetchable at h
  rw [BitVec.toNat_add]
  exact Nat.mod_eq_of_lt (by simp; omega)

/-- A step after a successful fetch dispatches the word from the pre-advanced state. -/
theorem step_of_fetches (hr : s.status = .running) (hw : FetchesWord s w) : step s = dispatchWord w s.advancePc := by
  simp only [step, hr, fetch_eq_some_iff.2 hw]

/-- A step whose fetch is out of bounds raises OutOfBounds. -/
theorem step_of_outOfBounds (hr : s.status = .running) (hp : 4095 ≤ s.pc.toNat) : step s = .next s.raiseOutOfBounds := by
  simp only [step, hr, fetch_eq_none_iff.2 hp]

/-- No step exists from a status other than Running. -/
theorem step_of_notRunning (hr : s.status ≠ .running) : step s = .fault (.notRunning s.status) := by
  unfold step
  cases h : s.status with
  | running => exact absurd h hr
  | idle => rfl
  | halted => rfl
  | faulted => rfl

/-- Everything a step can do (R86). -/
theorem step_next_cases (h : step s = .next t) : s.status = .running ∧
    ((4095 ≤ s.pc.toNat ∧ t = s.raiseOutOfBounds) ∨
     (∃ w i, FetchesWord s w ∧ decode w = .instr i ∧ exec i s.advancePc = .next t) ∨
     (∃ w v, FetchesWord s w ∧ decode w = .unimplementedOpcode v ∧ t = s.advancePc.raiseUnimplementedOpcode v)) := by
  by_cases hr : s.status = .running
  · refine ⟨hr, ?_⟩
    cases hf : s.fetch with
    | none =>
      have hp := fetch_eq_none_iff.1 hf
      rw [step_of_outOfBounds hr hp] at h
      exact .inl ⟨hp, (Host.Outcome.next.inj h).symm⟩
    | some w =>
      have hw := fetch_eq_some_iff.1 hf
      rw [step_of_fetches hr hw, dispatchWord] at h
      cases hd : decode w with
      | instr i => rw [hd] at h; exact .inr (.inl ⟨w, i, hw, hd, h⟩)
      | unimplementedOpcode v =>
        rw [hd] at h
        exact .inr (.inr ⟨w, v, hw, hd, (Host.Outcome.next.inj h).symm⟩)
  · rw [step_of_notRunning hr] at h
    cases h

/-- One step of a bounded run, where the step completes. -/
theorem runFor_succ_of_next (n : Nat) (h : step s = .next t) : runFor (n + 1) s = runFor n t := by
  rw [runFor, h]

/-- One step of the host's run of the machine, where the step completes. -/
theorem core_run_succ_of_next (n : Nat) (h : step s = .next t) :
    Host.Core.run core (n + 1) s = Host.Core.run core n t := by
  have h' : Host.Core.step core s = .next t := h
  simp only [Host.Core.run, h']

/-- A run goes nowhere from a status other than Running (R91). -/
theorem runFor_of_notRunning (n : Nat) (h : s.status ≠ .running) : runFor n s = s := by
  cases n with
  | zero => rfl
  | succ n => rw [runFor, step_of_notRunning h]

/-- Run's entry changes nothing where status is Running already (R89). -/
@[simp] theorem startRun_of_running (h : s.status = .running) : startRun s = s := by
  unfold startRun
  rw [← h]

end Sys2Proof.Machine
end

