-- ==== Sys2Proof/Laws/Exec.lean ====
section
/-! SUPPORT. What the shared operations behind the meanings do (call stack, skip, addition), and the state each
instruction answers: always a next state. -/

namespace Sys2Proof.Machine

variable (s : State)

/-- Pushing the program counter, the stack full: nothing. -/
theorem pushPc_of_full (h : s.sp.val = 16) : s.pushPc = none := dif_pos h

/-- Pushing the program counter with a free slot: slot sp holds pc, every other slot is as before, sp is one more, and
nothing else changes (R104). -/
theorem pushPc_of_room (h : s.sp.val < 16) : ∃ t, s.pushPc = some t ∧ t.sp.val = s.sp.val + 1 ∧
    (∀ j : Fin 16, t.slot j = if j.val = s.sp.val then s.pc else s.slot j) ∧ t.regs = s.regs ∧ t.pc = s.pc ∧
    t.mem = s.mem ∧ t.status = s.status ∧ t.fault = s.fault ∧ t.freeDraws = s.freeDraws := by
  refine ⟨_, dif_neg (by omega), rfl, ?_, rfl, rfl, rfl, rfl, rfl, rfl⟩
  intro j
  simp only [State.slot, Vector.getElem_set, eq_comm]

/-- Popping from the empty stack: nothing. -/
theorem popPc_of_empty (h : s.sp.val = 0) : s.popPc = none := dif_pos h

/-- Popping an occupied stack: pc is the slot below sp, sp is one less, and nothing else changes, the slots included
(R102, R34). -/
theorem popPc_of_occupied (h : 0 < s.sp.val) : ∃ t, s.popPc = some t ∧ t.sp.val + 1 = s.sp.val ∧
    (∀ j : Fin 16, j.val + 1 = s.sp.val → t.pc = s.slot j) ∧ t.stack = s.stack ∧ t.regs = s.regs ∧ t.mem = s.mem ∧
    t.status = s.status ∧ t.fault = s.fault ∧ t.freeDraws = s.freeDraws := by
  refine ⟨_, dif_neg (by omega), by simp only; omega, ?_, rfl, rfl, rfl, rfl, rfl, rfl⟩
  intro j hj
  simp only [State.slot, ← hj, Nat.add_sub_cancel]

theorem skipIf_pc (b : Bool) : (skipIf b s).pc = if b then s.pc + 2#16 else s.pc := by cases b <;> rfl

/-- A skip changes the program counter and nothing else. -/
theorem skipIf_eq (b : Bool) : skipIf b s = s.setPc (if b then s.pc + 2#16 else s.pc) := by cases b <;> rfl

@[simp] theorem Source.value_immediate (kk : Byte) : Source.value s (.immediate kk) = kk := rfl
@[simp] theorem Source.value_register (y : RegIndex) : Source.value s (.register y) = s.reg y := rfl

theorem wrappedSum_toNat (a b : Byte) : (wrappedSum a b).toNat = (a.toNat + b.toNat) % 256 := by
  simp [wrappedSum, unreducedSum]

theorem carryFlag_toNat (a b : Byte) : (carryFlag a b).toNat = if a.toNat + b.toNat > 255 then 1 else 0 := by
  unfold carryFlag unreducedSum; split <;> rfl

theorem targetOf_toNat (addr : AddrField) : (targetOf addr).toNat = addr.toNat := by
  simp [targetOf]; omega

theorem execReturn_of_empty (h : s.sp.val = 0) : exec .ret s = .next s.raiseStackUnderflow := by
  simp only [exec, execReturn, popPc_of_empty s h]

theorem execReturn_of_occupied {t : State} (h : s.popPc = some t) : exec .ret s = .next t := by
  simp only [exec, execReturn, h]

theorem execCall_of_full (addr : AddrField) (h : s.sp.val = 16) : exec (.call addr) s = .next s.raiseStackOverflow := by
  simp only [exec, execCall, pushPc_of_full s h]

theorem execCall_of_room {t : State} (addr : AddrField) (h : s.pushPc = some t) :
    exec (.call addr) s = .next (t.setPc (targetOf addr)) := by
  simp only [exec, execCall, h]

/-- Every instruction answers a next state from every state. -/
theorem exec_answers_next (i : Instr) : ∃ t, exec i s = .next t := by
  cases i with
  | ret =>
    rcases Nat.eq_zero_or_pos s.sp.val with h | h
    · exact ⟨_, execReturn_of_empty s h⟩
    · obtain ⟨t, ht, -⟩ := popPc_of_occupied s h
      exact ⟨t, execReturn_of_occupied s ht⟩
  | call addr =>
    by_cases h : s.sp.val = 16
    · exact ⟨_, execCall_of_full s addr h⟩
    · obtain ⟨t, ht, -⟩ := pushPc_of_room s (by omega)
      exact ⟨_, execCall_of_room s addr ht⟩
  | halt => exact ⟨_, rfl⟩
  | clearScreen => exact ⟨_, rfl⟩
  | jump addr => exact ⟨_, rfl⟩
  | skipEqualImmediate x kk => exact ⟨_, rfl⟩
  | skipNotEqualImmediate x kk => exact ⟨_, rfl⟩
  | skipEqualRegisters x y => exact ⟨_, rfl⟩
  | loadImmediate x kk => exact ⟨_, rfl⟩
  | addImmediate x kk => exact ⟨_, rfl⟩
  | move x y => exact ⟨_, rfl⟩
  | orRegisters x y => exact ⟨_, rfl⟩
  | andRegisters x y => exact ⟨_, rfl⟩
  | xorRegisters x y => exact ⟨_, rfl⟩
  | addRegisters x y => exact ⟨_, rfl⟩

end Sys2Proof.Machine
end

