-- ==== Sys2Proof/Laws/PerInstr.lean ====
section
/-! SUPPORT. The per-instruction family EncodingRow: an instruction is well formed, and its word lies in the row of
30_encoding.md R66 that stands for it. -/

namespace Sys2Proof.Laws

/-- The mask and match of an instruction's row in the opcode map (30_encoding.md R66). -/
def opcodeRow : Instr → Opcode × Opcode
  | .halt => (0xFFFF#16, 0x0000#16)
  | .clearScreen => (0xFFFF#16, 0x00E0#16)
  | .ret => (0xFFFF#16, 0x00EE#16)
  | .jump _ => (0xF000#16, 0x1000#16)
  | .call _ => (0xF000#16, 0x2000#16)
  | .skipEqualImmediate _ _ => (0xF000#16, 0x3000#16)
  | .skipNotEqualImmediate _ _ => (0xF000#16, 0x4000#16)
  | .skipEqualRegisters _ _ => (0xF00F#16, 0x5000#16)
  | .loadImmediate _ _ => (0xF000#16, 0x6000#16)
  | .addImmediate _ _ => (0xF000#16, 0x7000#16)
  | .move _ _ => (0xF00F#16, 0x8000#16)
  | .orRegisters _ _ => (0xF00F#16, 0x8001#16)
  | .andRegisters _ _ => (0xF00F#16, 0x8002#16)
  | .xorRegisters _ _ => (0xF00F#16, 0x8003#16)
  | .addRegisters _ _ => (0xF00F#16, 0x8004#16)

/-- The word of a register-and-byte instruction lies in its family's row. -/
theorem XK_in_row (f : BitVec 4) (x : RegIndex) (kk : Byte) (p : Opcode) (hp : p.toNat = f.toNat * 4096) :
    selects 0xF000#16 p (f ++ x ++ kk) = true := by
  rw [selects_family, append_XK_toNat, hp]; omega

/-- The word of an address instruction lies in its family's row. -/
theorem A_in_row (f : BitVec 4) (addr : AddrField) (p : Opcode) (hp : p.toNat = f.toNat * 4096) :
    selects 0xF000#16 p (f ++ addr) = true := by
  rw [selects_family, append_A_toNat, hp]; omega

/-- The word of a two-register instruction lies in its family's row for its op_minor. -/
theorem XY_in_row (f : BitVec 4) (x y : RegIndex) (n : BitVec 4) (p : Opcode) (hp : p.toNat = f.toNat * 4096 + n.toNat) :
    selects 0xF00F#16 p (f ++ x ++ y ++ n) = true := by
  rw [selects_familyMinor, append_XY_toNat, hp]; omega

/-- The operands of any line made from fields are in range. -/
theorem reg_inRange (x : RegIndex) : regInRange x.toNat = true := decide_eq_true x.isLt
theorem byte_inRange (kk : Byte) : byteInRange kk.toNat = true := decide_eq_true (by simp only [Config.maxByte]; omega)
theorem addr_inRange (a : AddrField) : addrInRange a.toNat = true :=
  decide_eq_true (by simp only [Config.lastAddr]; omega)

namespace EncodingRow

/-- The instruction is well formed and its word is selected by its row's mask and match. -/
def Statement (i : Instr) : Prop :=
  i.wellFormed = true ∧ selects (opcodeRow i).1 (opcodeRow i).2 (encode i) = true

theorem halt : Statement .halt := ⟨rfl, by decide⟩
theorem clearScreen : Statement .clearScreen := ⟨rfl, by decide⟩
theorem ret : Statement .ret := ⟨rfl, by decide⟩
theorem jump (addr : AddrField) : Statement (.jump addr) := ⟨addr_inRange addr, A_in_row _ _ _ rfl⟩
theorem call (addr : AddrField) : Statement (.call addr) := ⟨addr_inRange addr, A_in_row _ _ _ rfl⟩
theorem skipEqualImmediate (x : RegIndex) (kk : Byte) : Statement (.skipEqualImmediate x kk) :=
  ⟨Bool.and_eq_true_iff.2 ⟨reg_inRange x, byte_inRange kk⟩, XK_in_row _ _ _ _ rfl⟩
theorem skipNotEqualImmediate (x : RegIndex) (kk : Byte) : Statement (.skipNotEqualImmediate x kk) :=
  ⟨Bool.and_eq_true_iff.2 ⟨reg_inRange x, byte_inRange kk⟩, XK_in_row _ _ _ _ rfl⟩
theorem skipEqualRegisters (x y : RegIndex) : Statement (.skipEqualRegisters x y) :=
  ⟨Bool.and_eq_true_iff.2 ⟨reg_inRange x, reg_inRange y⟩, XY_in_row _ _ _ _ _ rfl⟩
theorem loadImmediate (x : RegIndex) (kk : Byte) : Statement (.loadImmediate x kk) :=
  ⟨Bool.and_eq_true_iff.2 ⟨reg_inRange x, byte_inRange kk⟩, XK_in_row _ _ _ _ rfl⟩
theorem addImmediate (x : RegIndex) (kk : Byte) : Statement (.addImmediate x kk) :=
  ⟨Bool.and_eq_true_iff.2 ⟨reg_inRange x, byte_inRange kk⟩, XK_in_row _ _ _ _ rfl⟩
theorem move (x y : RegIndex) : Statement (.move x y) :=
  ⟨Bool.and_eq_true_iff.2 ⟨reg_inRange x, reg_inRange y⟩, XY_in_row _ _ _ _ _ rfl⟩
theorem orRegisters (x y : RegIndex) : Statement (.orRegisters x y) :=
  ⟨Bool.and_eq_true_iff.2 ⟨reg_inRange x, reg_inRange y⟩, XY_in_row _ _ _ _ _ rfl⟩
theorem andRegisters (x y : RegIndex) : Statement (.andRegisters x y) :=
  ⟨Bool.and_eq_true_iff.2 ⟨reg_inRange x, reg_inRange y⟩, XY_in_row _ _ _ _ _ rfl⟩
theorem xorRegisters (x y : RegIndex) : Statement (.xorRegisters x y) :=
  ⟨Bool.and_eq_true_iff.2 ⟨reg_inRange x, reg_inRange y⟩, XY_in_row _ _ _ _ _ rfl⟩
theorem addRegisters (x y : RegIndex) : Statement (.addRegisters x y) :=
  ⟨Bool.and_eq_true_iff.2 ⟨reg_inRange x, reg_inRange y⟩, XY_in_row _ _ _ _ _ rfl⟩

end EncodingRow

end Sys2Proof.Laws
end

