-- ==== Sys2Proof/Tests/Slice0.lean ====
section
/-! SUPPORT. The model's own tests. Expected results are those of 95_test_vectors.md (the vector's name stands beside
each) or of the rule cited. The witnesses at the end show, for each statement with hypotheses, states that meet them. -/

namespace Sys2Proof.Machine.Tests

/-- The outcome is a next state with the property. -/
def goesTo (o : Host.Outcome State Fault Refusal) (p : State → Bool) : Bool :=
  match o with
  | .next t => p t
  | .fault _ => false
  | .refused _ => false

/-- The outcome is this refusal. -/
def refusedFor (o : Host.Outcome State Fault Refusal) (r : Refusal) : Bool :=
  match o with
  | .next _ => false
  | .fault _ => false
  | .refused q => q == r

/-- The reset state with pc at `p`, the word `w` there, and Running. -/
def at' (p : Addr) (w : Opcode) : State := (State.reset.setPc p).placeWord w

/-- The same with some registers set first. -/
def atRegs (p : Addr) (w : Opcode) (rs : List (RegIndex × Byte)) : State :=
  rs.foldl (fun s r => s.setReg r.1 r.2) (at' p w)

/-- The same with the stack pointer and one slot set. -/
def atStack (p : Addr) (w : Opcode) (n : Fin 17) (j : Fin 16) (v : Addr) : State :=
  { at' p w with sp := n, stack := (at' p w).stack.set j.val v }

/- Well-formedness: one ill-formed term for each check. -/
theorem test_register_16_is_refused : AsmLine.wellFormed ⟨.move, [16, 0]⟩ = false := by decide
theorem test_byte_256_is_refused : AsmLine.wellFormed ⟨.loadImmediate, [0, 256]⟩ = false := by decide
theorem test_address_4096_is_refused : AsmLine.wellFormed ⟨.jump, [4096]⟩ = false := by decide
theorem test_word_65536_is_refused : AsmLine.wellFormed ⟨.word, [65536]⟩ = false := by decide
theorem test_missing_operand_is_refused : AsmLine.wellFormed ⟨.call, []⟩ = false := by decide
theorem test_image_past_memory_is_refused : Image.wellFormed ⟨4095, [.instr .halt]⟩ = false := by decide
theorem test_ill_formed_line_does_not_assemble : AsmLine.assemble ⟨.addRegisters, [3, 16]⟩ = none := by decide
theorem test_line_assembles : AsmLine.assemble ⟨.addRegisters, [3, 4]⟩ = some (.instr (.addRegisters 3 4)) := by decide

/- Decoding: each constructor's word, written out from its pattern in R66. -/
theorem test_decode_halt : decode 0b0000000000000000#16 = .instr .halt := by decide
theorem test_decode_clearScreen : decode 0b0000000011100000#16 = .instr .clearScreen := by decide
theorem test_decode_return : decode 0b0000000011101110#16 = .instr .ret := by decide
theorem test_decode_jump : decode 0b0001101010111100#16 = .instr (.jump 0xABC) := by decide
theorem test_decode_call : decode 0b0010000100000000#16 = .instr (.call 0x100) := by decide
theorem test_decode_skipEqualImmediate : decode 0b0011001100101010#16 = .instr (.skipEqualImmediate 3 0x2A) := by decide
theorem test_decode_skipNotEqualImmediate :
    decode 0b0100000000000001#16 = .instr (.skipNotEqualImmediate 0 1) := by decide
theorem test_decode_skipEqualRegisters : decode 0b0101000100100000#16 = .instr (.skipEqualRegisters 1 2) := by decide
theorem test_decode_loadImmediate : decode 0b0110101000000111#16 = .instr (.loadImmediate 0xA 7) := by decide
theorem test_decode_addImmediate : decode 0b0111000100000101#16 = .instr (.addImmediate 1 5) := by decide
theorem test_decode_move : decode 0b1000000100100000#16 = .instr (.move 1 2) := by decide
theorem test_decode_or : decode 0b1000000000010001#16 = .instr (.orRegisters 0 1) := by decide
theorem test_decode_and : decode 0b1000000000010010#16 = .instr (.andRegisters 0 1) := by decide
theorem test_decode_xor : decode 0b1000000000010011#16 = .instr (.xorRegisters 0 1) := by decide
theorem test_decode_addRegisters : decode 0b1000001101000100#16 = .instr (.addRegisters 3 4) := by decide
/-- V-DEC-6 to V-DEC-11. -/
theorem test_illegal_words : [0x00E1#16, 0x00EF, 0x0001, 0x0FFF, 0x5121, 0x8005, 0x800E, 0x8FFF, 0x9000, 0xA123, 0xD000,
    0xFFFF].all (fun w => decode w == .unimplementedOpcode w) = true := by decide
/-- V-DEC-1. -/
theorem test_fields : fieldX 0x8AB4#16 = 0xA ∧ fieldY 0x8AB4#16 = 0xB ∧ fieldKK 0x8AB4#16 = 0xB4 ∧
    fieldN 0x8AB4#16 = 4 ∧ fieldAddr 0x8AB4#16 = 0xAB4 := by decide
/-- L1-10. -/
theorem test_bytes_are_big_endian : decodeBytes [0x12, 0x34] = .instr (.jump 0x234) [] := by decide
theorem test_one_byte_is_truncated : decodeBytes [0x12] = .truncated := by decide
theorem test_table_word : decodeTableWord 16 0x6A07 = some (.loadImmediate 0xA 7) := by decide
theorem test_table_word_runs_first :
    goesTo (step (State.reset.withFetchWord 16 0x6A07)) (fun t => t.reg 0xA == 7 && t.pc == 2) = true := by decide

/- Fetch and faults. -/
/-- V-FET-1. -/
theorem test_halt_at_top : goesTo (step (at' 0xFFE 0)) (fun t => t.pc == 0x1000 && t.status == .halted) = true := by
  decide
/-- V-FET-2, V-FET-4. -/
theorem test_fetch_out_of_bounds : goesTo (step (startRun (State.reset.setPc 0xFFF)))
    (fun t => t.pc == 0xFFF && t.status == .faulted && (t.fault.map (·.addr)) == some 0xFFF) = true := by decide
theorem test_fetch_does_not_wrap : goesTo (step (startRun (State.reset.setPc 0xFFFF)))
    (fun t => t.pc == 0xFFFF && (t.fault.map (·.reason)) == some .outOfBounds) = true := by decide
/-- V-FET-5. -/
theorem test_odd_pc_fetches : goesTo (step (at' 0x201 0x6005)) (fun t => t.reg 0 == 5 && t.pc == 0x203) = true := by
  decide
/-- V-EXC-4. -/
theorem test_unimplemented : goesTo (step (at' 0x010 0xD000)) (fun t => t.pc == 0x012 && t.status == .faulted &&
    (t.fault.map (·.opcode)) == some 0xD000) = true := by decide
/-- V-EXC-7. -/
theorem test_no_step_when_halted : step (State.reset.halt) = .fault (.notRunning .halted) := rfl

/- Control flow. -/
/-- V-CF-1. -/
theorem test_halt : goesTo (step (at' 0x004 0)) (fun t => t.pc == 0x006 && t.status == .halted) = true := by decide
/-- V-CF-2. -/
theorem test_clearScreen : goesTo (step (at' 0x200 0x00E0)) (fun t => t.pc == 0x202 && t.status == .running) = true := by
  decide
/-- V-CF-3. -/
theorem test_return : goesTo (step (atStack 0x500 0x00EE 3 2 0x456))
    (fun t => t.pc == 0x456 && t.sp.val == 2 && t.slot 2 == 0x456) = true := by decide
/-- V-CF-4. -/
theorem test_return_underflows : goesTo (step (at' 0x300 0x00EE)) (fun t => t.pc == 0x302 && t.sp.val == 0 &&
    (t.fault.map (·.reason)) == some .stackUnderflow) = true := by decide
/-- V-CF-5, V-CF-6. -/
theorem test_jump_to_last_byte : goesTo (step (at' 0x200 0x1FFF)) (fun t => t.pc == 0xFFF) = true := by decide
theorem test_jump_to_odd : goesTo (step (at' 0x200 0x1203)) (fun t => t.pc == 0x203) = true := by decide
/-- V-CF-9. -/
theorem test_call_into_last_slot : goesTo (step { at' 0x200 0x2ABC with sp := 15 })
    (fun t => t.pc == 0xABC && t.sp.val == 16 && t.slot 15 == 0x202) = true := by decide
/-- V-CF-10. -/
theorem test_call_overflows : goesTo (step { at' 0x200 0x2ABC with sp := 16 }) (fun t => t.pc == 0x202 &&
    t.sp.val == 16 && (t.fault.map (·.reason)) == some .stackOverflow) = true := by decide

/- Comparison. -/
/-- V-CMP-1, V-CMP-10. -/
theorem test_se_taken : goesTo (step (atRegs 0x200 0x332A [(3, 0x2A)])) (fun t => t.pc == 0x204) = true := by decide
theorem test_se_at_top : goesTo (step (at' 0xFFE 0x3000)) (fun t => t.pc == 0x1002) = true := by decide
/-- V-CMP-4, V-CMP-5. -/
theorem test_sne_taken : goesTo (step (at' 0x200 0x4001)) (fun t => t.pc == 0x204) = true := by decide
theorem test_sne_not_taken : goesTo (step (atRegs 0x200 0x4001 [(0, 1)])) (fun t => t.pc == 0x202) = true := by decide
/-- V-CMP-6, V-CMP-7. -/
theorem test_ser_taken :
    goesTo (step (atRegs 0x300 0x5120 [(1, 0x7F), (2, 0x7F)])) (fun t => t.pc == 0x304) = true := by decide
theorem test_ser_not_taken :
    goesTo (step (atRegs 0x300 0x5120 [(1, 0x7F), (2, 0x80)])) (fun t => t.pc == 0x302) = true := by decide

/- Load, arithmetic and logic. -/
/-- V-ALU-2. -/
theorem test_load_VF : goesTo (step (at' 0x200 0x6FFF)) (fun t => t.reg 0xF == 0xFF && t.pc == 0x202) = true := by decide
/-- V-ALU-3, V-ALU-5. -/
theorem test_addImmediate_wraps : goesTo (step (atRegs 0x200 0x7105 [(1, 0xFE), (0xF, 0x5A)]))
    (fun t => t.reg 1 == 3 && t.reg 0xF == 0x5A) = true := by decide
theorem test_addImmediate_to_VF :
    goesTo (step (atRegs 0x200 0x7F01 [(0xF, 0xFF)])) (fun t => t.reg 0xF == 0) = true := by decide
/-- V-ALU-6. -/
theorem test_move :
    goesTo (step (atRegs 0x200 0x8120 [(2, 0x55)])) (fun t => t.reg 1 == 0x55 && t.reg 2 == 0x55) = true := by decide
/-- V-ALU-7 to V-ALU-9. -/
theorem test_or : goesTo (step (atRegs 0x200 0x8011 [(0, 0xF0), (1, 0x0F), (0xF, 1)]))
    (fun t => t.reg 0 == 0xFF && t.reg 0xF == 1) = true := by decide
theorem test_and : goesTo (step (atRegs 0x200 0x8012 [(0, 0xF0), (1, 0x3C), (0xF, 1)]))
    (fun t => t.reg 0 == 0x30 && t.reg 0xF == 1) = true := by decide
theorem test_xor : goesTo (step (atRegs 0x200 0x8013 [(0, 0xF0), (1, 0x3C), (0xF, 1)]))
    (fun t => t.reg 0 == 0xCC && t.reg 0xF == 1) = true := by decide
/-- V-ALU-21, V-ALU-22. -/
theorem test_addRegisters_to_VF : goesTo (step (atRegs 0x200 0x8F04 [(0xF, 0xF0), (0, 0x20)]))
    (fun t => t.reg 0xF == 1 && t.reg 0 == 0x20) = true := by decide
theorem test_addRegisters_from_VF : goesTo (step (atRegs 0x200 0x80F4 [(0, 1), (0xF, 0xFF)]))
    (fun t => t.reg 0 == 0 && t.reg 0xF == 1) = true := by decide

/- Reset and the host. -/
/-- V-RST-1. -/
theorem test_reset : hostReadPC State.reset = 0 ∧ hostReadSP State.reset = 0 ∧ hostReadReg State.reset 15 = some 0 ∧
    hostReadMem State.reset 4095 = some 0 ∧ hostReadSlot State.reset 15 = some 0 ∧ hostReadStatus State.reset = 0 ∧
    hostReadFault State.reset = none := by decide
/-- V-RST-2. -/
theorem test_run_after_reset : (runFor 1 (startRun State.reset)).pc = 0x002 ∧
    hostReadStatus (runFor 1 (startRun State.reset)) = 2 := by decide
/-- 10_state.md R32's codes. -/
theorem test_reason_codes : FaultReason.outOfBounds.code = 0 ∧ FaultReason.stackOverflow.code = 1 ∧
    FaultReason.stackUnderflow.code = 2 ∧ FaultReason.unimplementedOpcode.code = 3 := by decide
/-- Writing the value an unlisted address reads as removes the entry. -/
theorem test_write_zero_removes : Memory.write (Memory.write [] 5 1) 5 0 = [] := by decide
theorem test_equal_memories_are_equal_data :
    Memory.write (Memory.write [] 9 2) 5 1 = Memory.write (Memory.write [] 5 1) 9 2 := by decide

/- Witnesses: for each statement with hypotheses, a state and operands that meet all of them, one for each clause. -/

theorem witness_DecodeOfEncode : (Instr.addRegisters 0xF 0xF).wellFormed = true := by decide
theorem witness_RecognisedWord : decode 0x8FF4#16 = .instr (.addRegisters 0xF 0xF) := by decide
/-- Fetch at the highest and at an odd address. -/
theorem witness_Fetchable : (at' 0xFFE 0x1FFF).pc.toNat ≤ 4094 ∧ (at' 0xFFD 0x1FFF).pc.toNat ≤ 4094 := by decide

/-- A running state at `p` fetches the word placed there. -/
theorem witness_fetchesWord_at_top :
    (at' 0xFFE 0x2300).status = .running ∧ FetchesWord (at' 0xFFE 0x2300) 0x2300 := ⟨rfl, by decide, by decide, by decide⟩
theorem witness_StepRuns : (at' 0x201 0x6005).status = .running ∧ FetchesWord (at' 0x201 0x6005) 0x6005 ∧
    decode 0x6005#16 = .instr (.loadImmediate 0 5) := ⟨rfl, ⟨by decide, by decide, by decide⟩, by decide⟩
theorem witness_StepRuns_unimplemented : (at' 0x010 0xD000).status = .running ∧ FetchesWord (at' 0x010 0xD000) 0xD000 ∧
    decode 0xD000#16 = .unimplementedOpcode 0xD000 := ⟨rfl, ⟨by decide, by decide, by decide⟩, by decide⟩

/-- No instruction's encoding is the word 0xD000. -/
theorem witness_UnimplementedWord : (at' 0x010 0xD000).status = .running ∧
    FetchesWord (at' 0x010 0xD000) 0xD000#16 ∧ ∀ i, encode i ≠ 0xD000#16 := by
  refine ⟨rfl, ⟨by decide, by decide, by decide⟩, fun i h => ?_⟩
  have hn := encode_toNat i
  rw [h] at hn
  cases i <;> simp only [encodeNat, BitVec.reduceToNat] at hn <;> omega

theorem witness_OutOfBounds : (startRun (State.reset.setPc 0xFFF)).status = .running ∧
    4095 ≤ (startRun (State.reset.setPc 0xFFF)).pc.toNat ∧ 4095 ≤ (startRun (State.reset.setPc 0xFFFF)).pc.toNat :=
  ⟨rfl, by decide, by decide⟩
theorem witness_NotRunning : State.reset.status ≠ .running ∧ State.reset.halt.status ≠ .running ∧
    State.reset.raiseStackOverflow.status ≠ .running := ⟨by decide, by decide, by simp [State.raiseStackOverflow]⟩

/-- A state for each clause of the run loop's transitions, and one for each fatal condition. -/
theorem witness_Transition_halt : (at' 0xFFE 0x0000).status = .running ∧ FetchesWord (at' 0xFFE 0x0000) 0x0000#16 :=
  ⟨rfl, by decide, by decide, by decide⟩
theorem witness_Transition_running : (at' 0x200 0x00E0).status = .running ∧ ¬ FetchesWord (at' 0x200 0x00E0) 0x0000#16 ∧
    ∃ t, step (at' 0x200 0x00E0) = .next t ∧ t.status = .running :=
  ⟨rfl, fun h => absurd h.2.2 (by decide), _, rfl, rfl⟩
theorem witness_Fatal_outOfBounds : FatalCondition (startRun (State.reset.setPc 0xFFF)) .outOfBounds ∧
    ∃ t, step (startRun (State.reset.setPc 0xFFF)) = .next t ∧ t.status = .faulted ∧ FaultedFor .outOfBounds t :=
  ⟨show 4095 ≤ BitVec.toNat _ by decide, _, rfl, rfl, rfl, _, rfl, rfl⟩
theorem witness_Fatal_stackOverflow : FatalCondition { at' 0x200 0x2ABC with sp := 16 } .stackOverflow ∧
    ∃ t, step { at' 0x200 0x2ABC with sp := 16 } = .next t ∧ t.status = .faulted ∧ FaultedFor .stackOverflow t :=
  ⟨⟨0xABC#12, ⟨by decide, by decide, by decide⟩, rfl⟩, _, rfl, rfl, rfl, _, rfl, rfl⟩
theorem witness_Fatal_stackUnderflow : FatalCondition (at' 0x300 0x00EE) .stackUnderflow ∧
    ∃ t, step (at' 0x300 0x00EE) = .next t ∧ t.status = .faulted ∧ FaultedFor .stackUnderflow t :=
  ⟨⟨⟨by decide, by decide, by decide⟩, rfl⟩, _, rfl, rfl, rfl, _, rfl, rfl⟩
theorem witness_Fatal_unimplementedOpcode : FatalCondition (at' 0x010 0x5121) .unimplementedOpcode ∧
    ∃ t, step (at' 0x010 0x5121) = .next t ∧ t.status = .faulted ∧ ¬ FaultedFor .outOfBounds t :=
  ⟨⟨0x5121#16, ⟨by decide, by decide, by decide⟩, by decide⟩, _, rfl, rfl, by rintro ⟨-, r, hr, hr'⟩; cases hr; cases hr'⟩

theorem witness_ClearScreen : (at' 0xFFE 0x00E0).status = .running ∧ FetchesWord (at' 0xFFE 0x00E0) 0x00E0#16 :=
  ⟨rfl, by decide, by decide, by decide⟩
theorem witness_Return_occupied : 0 < (atStack 0x500 0x00EE 1 0 0x456).sp.val ∧
    0 < (atStack 0x500 0x00EE 16 15 0xFFFF).sp.val := by decide
theorem witness_Return_empty : (at' 0x300 0x00EE).sp.val = 0 := by decide
theorem witness_Call_room : (at' 0x200 0x2ABC).sp.val < 16 ∧
    ({ at' 0x200 0x2ABC with sp := 15 } : State).sp.val < 16 := by decide
theorem witness_Call_full : ({ at' 0x200 0x2ABC with sp := 16 } : State).sp.val = 16 := by decide

/-- L1-4: a Call at 0x200 to a Return at 0x300. -/
def callThenReturn : State := { at' 0x200 0x2300 with mem := storeWord (at' 0x200 0x2300).mem 0x300 0x00EE }
theorem witness_CallThenReturn : callThenReturn.status = .running ∧ FetchesWord callThenReturn (0x2#4 ++ 0x300#12) ∧
    callThenReturn.sp.val < 16 ∧ (0x300#12).toNat ≤ 4094 ∧ Memory.byteAt callThenReturn.mem (0x300#12).toNat = 0x00#8 ∧
    Memory.byteAt callThenReturn.mem ((0x300#12).toNat + 1) = 0xEE#8 :=
  ⟨rfl, ⟨by decide, by decide, by decide⟩, by decide, by decide, by decide, by decide⟩
theorem witness_JumpToItself : (at' 0x200 0x1200).status = .running ∧ FetchesWord (at' 0x200 0x1200) (0x1#4 ++ 0x200#12) ∧
    (0x200#12).toNat = (at' 0x200 0x1200).pc.toNat := ⟨rfl, ⟨by decide, by decide, by decide⟩, by decide⟩
theorem witness_CallToItself : (at' 0 0x2000).status = .running ∧ FetchesWord (at' 0 0x2000) (0x2#4 ++ 0x000#12) ∧
    (0x000#12).toNat = (at' 0 0x2000).pc.toNat ∧ (at' 0 0x2000).sp.val = 0 :=
  ⟨rfl, ⟨by decide, by decide, by decide⟩, by decide, by decide⟩
theorem witness_Skips : FetchesWord (at' 0xFFE 0x3000) (0x3#4 ++ 0#4 ++ 0x00#8) ∧
    FetchesWord (at' 0xFFE 0x4000) (0x4#4 ++ 0#4 ++ 0x00#8) ∧
    FetchesWord (at' 0xFFE 0x5120) (0x5#4 ++ 1#4 ++ 2#4 ++ 0x0#4) :=
  ⟨⟨by decide, by decide, by decide⟩, ⟨by decide, by decide, by decide⟩, ⟨by decide, by decide, by decide⟩⟩

theorem witness_VF_written : ∃ t, exec (.loadImmediate 0xF#4 7) State.reset = .next t ∧ t.reg 0xF#4 ≠ State.reset.reg 0xF#4 :=
  ⟨_, rfl, by decide⟩
theorem witness_VF_carry : ∃ t, exec (.addRegisters 0#4 0#4) (State.reset.setReg 0 0x80) = .next t ∧ t.reg 0xF#4 = 1#8 :=
  ⟨_, rfl, by decide⟩
/-- A register file that differs from the state's in registers Move(1, 2) does not read. -/
theorem witness_RegistersRead : (∀ r, readsReg (.move 1 2) r = true →
    ({ State.reset with regs := (State.reset.setReg 5 9).regs } : State).reg r = State.reset.reg r) ∧
    (State.reset.setReg 5 9).regs ≠ State.reset.regs := by decide
theorem witness_step_next : ∃ t, step (at' 0x200 0x6A07) = .next t ∧ Reaches (at' 0x200 0x6A07) t :=
  ⟨_, rfl, .step .here rfl⟩
theorem witness_MemoryWords : (0xA123#16).toNat / 4096 = 0xA ∧ (0xD000#16).toNat / 4096 = 0xD ∧
    (0xF155#16).toNat / 4096 = 0xF := by decide
theorem witness_NeitherCallNorReturn : (Instr.jump 0) ≠ .ret ∧ ∀ addr, (Instr.jump 0) ≠ .call addr :=
  ⟨by decide, fun _ h => by cases h⟩
/-- A taken skip at the top of memory leaves the largest pc a step can leave; a Return can leave any slot's value. -/
theorem witness_PcBound : goesTo (step (at' 0xFFE 0x3000)) (fun t => t.pc.toNat == 4098) = true ∧
    goesTo (step (atStack 0x500 0x00EE 1 0 0xFFFF)) (fun t => t.pc == 0xFFFF) = true := by decide
theorem witness_Inv_and_step : Inv (at' 0x200 0x2ABC) ∧ ∃ t, step (at' 0x200 0x2ABC) = .next t :=
  ⟨⟨by decide, by decide, by decide, fun h => by cases h⟩, _, rfl⟩
theorem witness_HostWriteMem : Memory.wf State.reset.mem = true ∧ 4095 ≤ 4095 ∧ 255 ≤ 255 ∧ State.reset.status ≠ .running ∧
    (startRun State.reset).status = .running ∧ Memory.wf (startRun State.reset).mem = true := by decide
/-- Each refusing clause of HostWriteMem at its boundary: address 4096, value 256, status Running. -/
theorem witness_HostWriteMem_refused :
    refusedFor (hostWriteMem 4096 255 State.reset) (.hostAddressOutOfRange 4096) = true ∧
    refusedFor (hostWriteMem 4095 256 State.reset) (.hostValueOutOfRange 256) = true ∧
    refusedFor (hostWriteMem 4095 255 (startRun State.reset)) .hostWriteWhileRunning = true := by decide
theorem witness_HostWriteReg : 15 ≤ 15 ∧ 255 ≤ 255 ∧ State.reset.halt.status ≠ .running := by decide
/-- Each refusing clause of HostWriteReg at its boundary: index 16, value 256, status Running. -/
theorem witness_HostWriteReg_refused :
    refusedFor (hostWriteReg 16 255 State.reset) (.hostRegisterOutOfRange 16) = true ∧
    refusedFor (hostWriteReg 15 256 State.reset) (.hostValueOutOfRange 256) = true ∧
    refusedFor (hostWriteReg 15 255 (startRun State.reset)) .hostWriteWhileRunning = true := by decide
theorem witness_HostWritePC : 65535 ≤ 65535 ∧ State.reset.status ≠ .running ∧ 4095 ≤ 65535 := by decide
/-- Each refusing clause of HostWritePC at its boundary: value 65536, status Running. -/
theorem witness_HostWritePC_refused :
    refusedFor (hostWritePC 65536 State.reset) (.hostValueOutOfRange 65536) = true ∧
    refusedFor (hostWritePC 65535 (startRun State.reset)) .hostWriteWhileRunning = true := by decide
theorem witness_Image_at_top : Image.wellFormed ⟨4094, [.word 0xD000]⟩ = true ∧
    ([Line.word 0xD000#16])[0]? = some (.word 0xD000#16) := by decide
/-- V-RST-2: a Run from the reset state returns Halted. -/
theorem witness_RunReturns : ∃ t, RunReturns State.reset t ∧ t.status = .halted := ⟨_, ⟨1, rfl, by decide⟩, by decide⟩
/-- A Run stopped between ClearScreen at 0x200 and the Halt behind it is still Running, and continued it returns Halted. -/
theorem witness_BoundedRun : (at' 0x200 0x00E0).status = .running ∧ (runFor 1 (at' 0x200 0x00E0)).status = .running ∧
    (∃ t, RunReturns (at' 0x200 0x00E0) t ∧ t.status = .halted) :=
  ⟨rfl, by decide, _, ⟨2, rfl, by decide⟩, by decide⟩
theorem witness_Terminal : (runFor 1 (at' 0x004 0)).status.isTerminal = true := by decide
theorem witness_Unsafe : ¬ SafeFor 1 (at' 0x010 0xD000) := fun h => h rfl
theorem witness_Canonical : Memory.wf (Memory.write (Memory.write [] 9 2) 5 1) = true ∧
    Memory.wf (Memory.write (Memory.write [] 5 1) 9 2) = true := by decide

end Sys2Proof.Machine.Tests
end

section
/-! What an instruction leaves of the register file (10_state.md R21), and who writes VF (R22). -/

namespace Sys2Proof.Machine

variable {i : Instr} {s t : State} {r x : RegIndex} {v : Byte}

theorem reg_eq_of_regs_eq (h : t.regs = s.regs) : t.reg r = s.reg r := by
  simp only [State.reg, h]

theorem reg_setReg_of_beq_false (h : (r == x) = false) : (s.setReg x v).reg r = s.reg r := by
  rw [reg_setReg, if_neg (beq_eq_false_iff_ne.mp h)]

theorem reg_setReg_same : (s.setReg x v).reg x = v := by
  rw [reg_setReg, if_pos rfl]

/-- A skip decides pc only, so it leaves every register alone (42_comparison.md R123). -/
@[simp] theorem reg_skipIf (b : Bool) : (skipIf b s).reg r = s.reg r := by
  rw [skipIf_eq, reg_setPc]

/-- Return leaves the registers alone, on the empty stack too (R102, R173). -/
theorem regs_of_exec_ret (h : exec .ret s = .next t) : t.regs = s.regs := by
  rcases Nat.eq_zero_or_pos s.sp.val with h0 | h0
  · cases (execReturn_of_empty s h0).symm.trans h
    rfl
  · obtain ⟨u, hu, -, -, -, hregs, -⟩ := popPc_of_occupied s h0
    cases (execReturn_of_occupied s hu).symm.trans h
    exact hregs

/-- Call leaves the registers alone, on the full stack too (R104, R172). -/
theorem regs_of_exec_call {addr : AddrField} (h : exec (.call addr) s = .next t) : t.regs = s.regs := by
  by_cases hfull : s.sp.val = 16
  · cases (execCall_of_full s addr hfull).symm.trans h
    rfl
  · obtain ⟨u, hu, -, -, hregs, -⟩ := pushPc_of_room s (by omega)
    cases (execCall_of_room s addr hu).symm.trans h
    exact hregs

/-- The register frame of every instruction: a register outside its write column of R21 keeps its value. -/
theorem reg_of_exec_of_not_writesReg (h : exec i s = .next t) (hw : writesReg i r = false) : t.reg r = s.reg r := by
  cases i with
  | ret => exact reg_eq_of_regs_eq (regs_of_exec_ret h)
  | call addr => exact reg_eq_of_regs_eq (regs_of_exec_call h)
  | halt => cases h; rfl
  | clearScreen => cases h; rfl
  | jump addr => cases h; rfl
  | skipEqualImmediate x kk => cases h; exact reg_skipIf _
  | skipNotEqualImmediate x kk => cases h; exact reg_skipIf _
  | skipEqualRegisters x y => cases h; exact reg_skipIf _
  | loadImmediate x kk => cases h; exact reg_setReg_of_beq_false hw
  | addImmediate x kk => cases h; exact reg_setReg_of_beq_false hw
  | move x y => cases h; exact reg_setReg_of_beq_false hw
  | orRegisters x y => cases h; exact reg_setReg_of_beq_false hw
  | andRegisters x y => cases h; exact reg_setReg_of_beq_false hw
  | xorRegisters x y => cases h; exact reg_setReg_of_beq_false hw
  | addRegisters x y =>
    obtain ⟨hx, hvf⟩ := Bool.or_eq_false_iff.mp hw
    cases h
    exact (reg_setReg_of_beq_false hvf).trans (reg_setReg_of_beq_false hx)

/-- The rows of R21 whose write column holds VF: AddRegisters, and the six writers of V[x] with x = 0xF. -/
theorem writesReg_vf_cases (h : writesReg i 0xF#4 = true) :
    (∃ x y, i = .addRegisters x y) ∨ (∃ kk, i = .loadImmediate 0xF#4 kk ∨ i = .addImmediate 0xF#4 kk) ∨
    (∃ y, i = .move 0xF#4 y ∨ i = .orRegisters 0xF#4 y ∨ i = .andRegisters 0xF#4 y ∨ i = .xorRegisters 0xF#4 y) := by
  cases i with
  | addRegisters x y => exact .inl ⟨x, y, rfl⟩
  | loadImmediate x kk => cases eq_of_beq h; exact .inr (.inl ⟨kk, .inl rfl⟩)
  | addImmediate x kk => cases eq_of_beq h; exact .inr (.inl ⟨kk, .inr rfl⟩)
  | move x y => cases eq_of_beq h; exact .inr (.inr ⟨y, .inl rfl⟩)
  | orRegisters x y => cases eq_of_beq h; exact .inr (.inr ⟨y, .inr (.inl rfl)⟩)
  | andRegisters x y => cases eq_of_beq h; exact .inr (.inr ⟨y, .inr (.inr (.inl rfl))⟩)
  | xorRegisters x y => cases eq_of_beq h; exact .inr (.inr ⟨y, .inr (.inr (.inr rfl))⟩)
  | halt | clearScreen | ret | jump _ | call _ | skipEqualImmediate _ _ | skipNotEqualImmediate _ _
  | skipEqualRegisters _ _ => cases h

theorem carryFlag_cases (a b : Byte) :
    (carryFlag a b = 1#8 ∧ a.toNat + b.toNat > 255) ∨ (carryFlag a b = 0#8 ∧ a.toNat + b.toNat ≤ 255) := by
  by_cases h : a.toNat + b.toNat > 255
  · exact .inl ⟨if_pos h, h⟩
  · exact .inr ⟨if_neg h, not_lt.mp h⟩

/-- VF holds the carry of the operands' values before the instruction, also where x or y is VF (R146, D7). -/
theorem reg_vf_of_exec_addRegisters {y : RegIndex} (h : exec (.addRegisters x y) s = .next t) :
    t.reg 0xF#4 = carryFlag (s.reg x) (s.reg y) := by
  cases h
  exact reg_setReg_same

/-- Settles O34: the six writers of V[x] by reading back the register written, the frame of VF by R21's write column,
and AddRegisters by its carry. -/
theorem onlyAddRegistersWritesVFImplicitly : Obligations.OnlyAddRegistersWritesVFImplicitly := by
  refine ⟨fun kk y s => ⟨⟨_, rfl, reg_setReg_same⟩, ⟨_, rfl, ?_⟩, ⟨_, rfl, reg_setReg_same⟩, ⟨_, rfl, reg_setReg_same⟩,
    ⟨_, rfl, reg_setReg_same⟩, ⟨_, rfl, reg_setReg_same⟩⟩, fun i s t h hne => ?_, fun x y s t h => ?_⟩
  · rw [reg_setReg_same, wrappedSum_toNat, Source.value_immediate]
  · refine writesReg_vf_cases (Bool.of_not_eq_false fun hw => hne ?_)
    exact reg_of_exec_of_not_writesReg h hw
  · rw [reg_vf_of_exec_addRegisters h]
    exact carryFlag_cases (s.reg x) (s.reg y)

end Sys2Proof.Machine
end

section
/-! Memory as the instructions see it (20_memory.md): the big-endian fetch (R43, R44), and no data access (R42). -/

namespace Sys2Proof.Machine

variable {i : Instr} {s t : State}

/-- A fetch that can succeed reads the two bytes from pc on, whatever pc's parity (R43, R44, R80). -/
theorem fetch_of_fetchable (h : Fetchable s) :
    s.fetch = some (bigEndian (Memory.byteAt s.mem s.pc.toNat) (Memory.byteAt s.mem (s.pc.toNat + 1))) :=
  if_neg (not_lt.mpr (Nat.succ_le_succ h))

/-- Settles O7: the word fetched joins the two bytes, and the joined word's number is R43's. -/
theorem fetchIsBigEndian : Obligations.FetchIsBigEndian := fun _ h =>
  ⟨_, fetch_of_fetchable h, bigEndian_toNat _ _⟩

theorem popPc_with_mem (m : Memory) (h : s.popPc = some t) :
    ({ s with mem := m } : State).popPc = some { t with mem := m } := by
  by_cases h0 : s.sp.val = 0
  · cases (popPc_of_empty s h0).symm.trans h
  · cases (dif_neg h0).symm.trans h
    exact dif_neg h0

theorem pushPc_with_mem (m : Memory) (h : s.pushPc = some t) :
    ({ s with mem := m } : State).pushPc = some { t with mem := m } := by
  by_cases hfull : s.sp.val = 16
  · cases (pushPc_of_full s hfull).symm.trans h
  · cases (dif_neg hfull).symm.trans h
    exact dif_neg hfull

theorem skipIf_with_mem (m : Memory) (b : Bool) :
    skipIf b { s with mem := m } = { skipIf b s with mem := m } := by
  rw [skipIf_eq, skipIf_eq]
  rfl

/-- Return depends on no byte of memory, on the empty stack too: the call stack is apart from memory (R41, R102). -/
theorem exec_ret_with_mem (m : Memory) (h : exec .ret s = .next t) :
    exec .ret { s with mem := m } = .next { t with mem := m } := by
  rcases Nat.eq_zero_or_pos s.sp.val with h0 | h0
  · cases (execReturn_of_empty s h0).symm.trans h
    exact execReturn_of_empty _ h0
  · obtain ⟨u, hu, -⟩ := popPc_of_occupied s h0
    cases (execReturn_of_occupied s hu).symm.trans h
    exact execReturn_of_occupied _ (popPc_with_mem m hu)

/-- Call depends on no byte of memory, on the full stack too (R41, R104). -/
theorem exec_call_with_mem {addr : AddrField} (m : Memory) (h : exec (.call addr) s = .next t) :
    exec (.call addr) { s with mem := m } = .next { t with mem := m } := by
  by_cases hfull : s.sp.val = 16
  · cases (execCall_of_full s addr hfull).symm.trans h
    exact execCall_of_full _ addr hfull
  · obtain ⟨u, hu, -⟩ := pushPc_of_room s (by omega)
    cases (execCall_of_room s addr hu).symm.trans h
    exact execCall_of_room _ addr (pushPc_with_mem m hu)

/-- No instruction loads (R42): from the same state with another memory it answers the same state with that memory. -/
theorem exec_with_mem (m : Memory) (h : exec i s = .next t) :
    exec i { s with mem := m } = .next { t with mem := m } := by
  cases i with
  | ret => exact exec_ret_with_mem m h
  | call addr => exact exec_call_with_mem m h
  | skipEqualImmediate x kk => cases h; exact congrArg _ (skipIf_with_mem m _)
  | skipNotEqualImmediate x kk => cases h; exact congrArg _ (skipIf_with_mem m _)
  | skipEqualRegisters x y => cases h; exact congrArg _ (skipIf_with_mem m _)
  | halt | clearScreen | jump _ | loadImmediate _ _ | addImmediate _ _ | move _ _ | orRegisters _ _
  | andRegisters _ _ | xorRegisters _ _ | addRegisters _ _ => cases h; rfl

/-- No instruction stores (R42). The law of no load at the memory the state has already says so: the answer is the
answer with that memory put in. -/
theorem mem_of_exec (h : exec i s = .next t) : t.mem = s.mem := by
  have hsame : exec i s = .next { t with mem := s.mem } := exec_with_mem s.mem h
  rw [Host.Outcome.next.inj (h.symm.trans hsame)]

theorem mem_of_step (h : step s = .next t) : t.mem = s.mem := by
  obtain ⟨-, ⟨-, rfl⟩ | ⟨w, i, -, -, hexec⟩ | ⟨w, v, -, -, rfl⟩⟩ := step_next_cases h
  · rfl
  · exact (mem_of_exec hexec).trans (advancePc_mem s)
  · rfl

theorem sameMemory_of_mem_eq (h : t.mem = s.mem) : SameMemory s t := fun a => by rw [h]

/-- The opcode map ends with family 0x8 (R66, R67). -/
theorem decode_of_family_ge_nine {w : Opcode} (h : 9 ≤ w.toNat / 4096) : decode w = .unimplementedOpcode w := by
  rw [decode_eq_arith]
  iterate 15 rw [if_neg (by omega)]

/-- Settles O37: every arm carries a change of memory through untouched, which gives the frame of `exec` and of `step`,
and the families 0xA, 0xD and 0xF lie past the end of the opcode map. -/
theorem memoryIsNeitherLoadedNorStored : Obligations.MemoryIsNeitherLoadedNorStored := by
  refine ⟨fun i s m => ?_, fun s t h => sameMemory_of_mem_eq (mem_of_step h), fun w hw => ?_⟩
  · obtain ⟨t, ht⟩ := exec_answers_next s i
    exact ⟨t, ht, sameMemory_of_mem_eq (mem_of_exec ht), exec_with_mem m ht⟩
  · exact decode_of_family_ge_nine (by omega)

end Sys2Proof.Machine
end

section
/-! Decoding by the opcode map (30_encoding.md R66, R76): a word decodes to the instruction whose fields, put back in their
places, make the word, and to its own rejection where there is none. -/

namespace Sys2Proof

variable {w p : Opcode} {i : Instr}

theorem fieldX_eq {x : RegIndex} (h : x.toNat = w.toNat / 256 % 16) : fieldX w = x :=
  BitVec.eq_of_toNat_eq ((fieldX_toNat w).trans h.symm)

theorem fieldY_eq {y : RegIndex} (h : y.toNat = w.toNat / 16 % 16) : fieldY w = y :=
  BitVec.eq_of_toNat_eq ((fieldY_toNat w).trans h.symm)

theorem fieldKK_eq {kk : Byte} (h : kk.toNat = w.toNat % 256) : fieldKK w = kk :=
  BitVec.eq_of_toNat_eq ((fieldKK_toNat w).trans h.symm)

theorem fieldAddr_eq {addr : AddrField} (h : addr.toNat = w.toNat % 4096) : fieldAddr w = addr :=
  BitVec.eq_of_toNat_eq ((fieldAddr_toNat w).trans h.symm)

/-- The decoder answers an instruction that encodes back to the word, or rejects the word itself (R76, R77). -/
theorem decode_instr_or_unimplemented (w : Opcode) :
    (∃ i, decode w = .instr i ∧ encodeNat i = w.toNat) ∨ decode w = .unimplementedOpcode w := by
  rcases decode_cases w with ⟨hw, h⟩ | ⟨hw, h⟩ | ⟨hw, h⟩ | ⟨hw, h⟩ | ⟨hw, h⟩ | ⟨hw, h⟩ | ⟨hw, h⟩ | ⟨hw, h⟩ | ⟨hw, h⟩ |
    ⟨hw, h⟩ | ⟨hw, h⟩ | ⟨hw, h⟩ | ⟨hw, h⟩ | ⟨hw, h⟩ | ⟨hw, h⟩ | ⟨-, -, -, -, h⟩
  pick_goal 16
  · exact .inr h
  all_goals
    refine .inl ⟨_, h, ?_⟩
    simp only [encodeNat, fieldX_toNat, fieldY_toNat, fieldKK_toNat, fieldAddr_toNat]
    omega

/-- The word with an instruction's number decodes to it: the rows before its own do not select the word, its own does,
and the operands are the word's fields. -/
theorem decode_of_encodeNat (h : encodeNat i = w.toNat) : decode w = .instr i := by
  rw [decode_eq_arith]
  cases i
  all_goals
    simp only [encodeNat] at h
    iterate rw [if_neg (by omega)]
    rw [if_pos (by omega)]
  case jump addr | call addr => rw [fieldAddr_eq (addr := addr) (by omega)]
  case skipEqualImmediate x kk | skipNotEqualImmediate x kk | loadImmediate x kk | addImmediate x kk =>
    rw [fieldX_eq (x := x) (by omega), fieldKK_eq (kk := kk) (by omega)]
  case skipEqualRegisters x y | move x y | orRegisters x y | andRegisters x y | xorRegisters x y | addRegisters x y =>
    rw [fieldX_eq (x := x) (by omega), fieldY_eq (y := y) (by omega)]

theorem decode_eq_instr_iff : decode w = .instr i ↔ encodeNat i = w.toNat := by
  refine ⟨fun h => ?_, decode_of_encodeNat⟩
  rcases decode_instr_or_unimplemented w with ⟨j, hj, hw⟩ | hu
  · cases hj.symm.trans h
    exact hw
  · cases hu.symm.trans h

theorem eq_of_decode_eq_unimplementedOpcode {v : Opcode} (h : decode w = .unimplementedOpcode v) : v = w := by
  rcases decode_instr_or_unimplemented w with ⟨i, hi, -⟩ | hu
  · cases hi.symm.trans h
  · cases hu.symm.trans h
    rfl

/-- A row of format N selects by its match alone (R60, R66). -/
theorem decode_iff_rowN (hi : encodeNat i = p.toNat) : decode w = .instr i ↔ w &&& 0xFFFF#16 = p := by
  rw [decode_eq_instr_iff, hi, eq_comm, ← selects_word, selects, beq_iff_eq]

/-- A row of format A selects by the family, and its operand is the word's address (R60, R65, R66). -/
theorem decode_iff_rowA {addr : AddrField} (hi : encodeNat i = p.toNat + addr.toNat) (hp : p.toNat % 4096 = 0) :
    decode w = .instr i ↔ w &&& 0xF000#16 = p ∧ addr.toNat = w.toNat % 4096 := by
  rw [decode_eq_instr_iff, hi, ← BitVec.toNat_inj (x := w &&& _), and_family_toNat]
  omega

/-- A row of format XK selects by the family, and its operands are the word's x and kk (R60, R61, R63, R66). -/
theorem decode_iff_rowXK {x : RegIndex} {kk : Byte} (hi : encodeNat i = p.toNat + x.toNat * 256 + kk.toNat)
    (hp : p.toNat % 4096 = 0) :
    decode w = .instr i ↔ w &&& 0xF000#16 = p ∧ x.toNat = w.toNat / 256 % 16 ∧ kk.toNat = w.toNat % 256 := by
  rw [decode_eq_instr_iff, hi, ← BitVec.toNat_inj (x := w &&& _), and_family_toNat]
  omega

/-- A row of format XY selects by the family and op_minor, and its operands are the word's x and y (R60 to R62, R64,
R66). -/
theorem decode_iff_rowXY {x y : RegIndex} (hi : encodeNat i = p.toNat + x.toNat * 256 + y.toNat * 16)
    (hp : p.toNat / 16 % 256 = 0) :
    decode w = .instr i ↔ w &&& 0xF00F#16 = p ∧ x.toNat = w.toNat / 256 % 16 ∧ y.toNat = w.toNat / 16 % 16 := by
  rw [decode_eq_instr_iff, hi, ← BitVec.toNat_inj (x := w &&& _), and_familyMinor_toNat]
  omega

/-- Settles O3: totality from the decoder's two answers, then the fifteen rows in R66's order, each by the lemma of its
format. -/
theorem everyWordDecodesByTheOpcodeMap : Obligations.EveryWordDecodesByTheOpcodeMap := fun w =>
  ⟨(decode_instr_or_unimplemented w).imp_left fun ⟨i, h, _⟩ => ⟨i, h⟩,
    fun _ => eq_of_decode_eq_unimplementedOpcode,
    decode_iff_rowN rfl, decode_iff_rowN rfl, decode_iff_rowN rfl,
    fun _ => decode_iff_rowA rfl rfl, fun _ => decode_iff_rowA rfl rfl,
    fun _ _ => decode_iff_rowXK rfl rfl, fun _ _ => decode_iff_rowXK rfl rfl,
    fun _ _ => decode_iff_rowXY rfl rfl,
    fun _ _ => decode_iff_rowXK rfl rfl, fun _ _ => decode_iff_rowXK rfl rfl,
    fun _ _ => decode_iff_rowXY rfl rfl, fun _ _ => decode_iff_rowXY rfl rfl, fun _ _ => decode_iff_rowXY rfl rfl,
    fun _ _ => decode_iff_rowXY rfl rfl, fun _ _ => decode_iff_rowXY rfl rfl⟩

end Sys2Proof
end

section
/-! The run loop (40_fetch_execute.md): what a Running step dispatches (R82), its transitions (R88), and runs bounded by
a step count (R90, R95). -/

namespace Sys2Proof.Machine

variable {i : Instr} {s t : State} {w : Opcode}

theorem step_of_instr (hr : s.status = .running) (hw : FetchesWord s w) (hd : decode w = .instr i) :
    step s = exec i s.advancePc := by
  rw [step_of_fetches hr hw, dispatchWord, hd]

theorem step_of_unimplementedOpcode (hr : s.status = .running) (hw : FetchesWord s w)
    (hd : decode w = .unimplementedOpcode w) : step s = .next (s.advancePc.raiseUnimplementedOpcode w) := by
  rw [step_of_fetches hr hw, dispatchWord, hd]

/-- Settles O8: the step dispatches the word fetched from the pre-advanced state, whose pc did not wrap. -/
theorem stepRunsTheDecodedInstruction : Obligations.StepRunsTheDecodedInstruction := fun _ _ hr hw =>
  ⟨advance_toNat hw.1, fun _ hd => step_of_instr hr hw hd, fun hd => ⟨_, step_of_unimplementedOpcode hr hw hd, rfl⟩⟩

/-- Fetching an instruction's encoding is fetching a word that decodes to it: no row has a don't-care bit (R77). -/
theorem fetchesWord_encode_iff (hw : FetchesWord s w) : FetchesWord s (encode i) ↔ decode w = .instr i := by
  rw [decode_eq_instr_iff, ← encode_toNat, BitVec.toNat_inj]
  exact ⟨fun h => h.unique hw, fun h => h ▸ hw⟩

@[simp] theorem status_skipIf (b : Bool) : (skipIf b s).status = s.status := by
  rw [skipIf_eq, setPc_status]

/-- What an instruction does to status: Halt ends the run, the two stack faults end it, and nothing else writes it
(R88, R172, R173). -/
theorem exec_status_cases (h : exec i s = .next t) :
    (i = .halt ∧ t.status = .halted) ∨
    (∃ addr, i = .call addr ∧ s.sp.val = 16 ∧ t = s.raiseStackOverflow) ∨
    (i = .ret ∧ s.sp.val = 0 ∧ t = s.raiseStackUnderflow) ∨
    (i ≠ .halt ∧ (∀ addr, i = .call addr → s.sp.val ≠ 16) ∧ (i = .ret → s.sp.val ≠ 0) ∧ t.status = s.status) := by
  cases i with
  | halt => cases h; exact .inl ⟨rfl, rfl⟩
  | call addr =>
    by_cases hfull : s.sp.val = 16
    · cases (execCall_of_full s addr hfull).symm.trans h
      exact .inr (.inl ⟨addr, rfl, hfull, rfl⟩)
    · obtain ⟨u, hu, -, -, -, -, -, hstatus, -⟩ := pushPc_of_room s (by omega)
      cases (execCall_of_room s addr hu).symm.trans h
      exact .inr (.inr (.inr ⟨nofun, fun _ _ => hfull, nofun, hstatus⟩))
  | ret =>
    rcases Nat.eq_zero_or_pos s.sp.val with h0 | h0
    · cases (execReturn_of_empty s h0).symm.trans h
      exact .inr (.inr (.inl ⟨rfl, h0, rfl⟩))
    · obtain ⟨u, hu, -, -, -, -, -, hstatus, -⟩ := popPc_of_occupied s h0
      cases (execReturn_of_occupied s hu).symm.trans h
      exact .inr (.inr (.inr ⟨nofun, nofun, fun _ => h0.ne', hstatus⟩))
  | skipEqualImmediate _ _ | skipNotEqualImmediate _ _ | skipEqualRegisters _ _ =>
    cases h
    exact .inr (.inr (.inr ⟨nofun, nofun, nofun, status_skipIf _⟩))
  | clearScreen | jump _ | loadImmediate _ _ | addImmediate _ _ | move _ _ | orRegisters _ _ | andRegisters _ _
  | xorRegisters _ _ | addRegisters _ _ =>
    cases h
    exact .inr (.inr (.inr ⟨nofun, nofun, nofun, rfl⟩))

/-- The two stack conditions are all that can be fatal once an instruction is decoded (R170). -/
theorem not_fatalCondition_of_instr {reason : FaultReason} (hw : FetchesWord s w) (hd : decode w = .instr i)
    (hcall : ∀ addr, i = .call addr → s.sp.val ≠ 16) (hret : i = .ret → s.sp.val ≠ 0) :
    ¬ FatalCondition s reason := by
  intro hfatal
  cases reason with
  | outOfBounds => exact absurd hw.1 (not_le.mpr hfatal)
  | stackOverflow =>
    obtain ⟨addr, hfetch, hsp⟩ := hfatal
    have hdecode : decode w = .instr (.call addr) := (fetchesWord_encode_iff hw).mp hfetch
    exact hcall addr (Decoded.instr.inj (hd.symm.trans hdecode)) hsp
  | stackUnderflow =>
    obtain ⟨hfetch, hsp⟩ := hfatal
    have hdecode : decode w = .instr .ret := (fetchesWord_encode_iff hw).mp hfetch
    exact hret (Decoded.instr.inj (hd.symm.trans hdecode)) hsp
  | unimplementedOpcode =>
    obtain ⟨v, hfetch, hv⟩ := hfatal
    cases hw.unique hfetch
    cases hd.symm.trans hv

/-- The three ends of a Running step, each with the condition that leads to it (R88). -/
theorem step_status_cases (hr : s.status = .running) : ∃ t, step s = .next t ∧
    ((t.status = .halted ∧ FetchesWord s 0x0000#16 ∧ ¬ ∃ reason, FatalCondition s reason) ∨
     (t.status = .faulted ∧ ¬ FetchesWord s 0x0000#16 ∧ ∃ reason, FatalCondition s reason) ∨
     (t.status = .running ∧ ¬ FetchesWord s 0x0000#16 ∧ ¬ ∃ reason, FatalCondition s reason)) := by
  by_cases hp : Fetchable s
  · obtain ⟨w, hw⟩ := exists_fetchesWord hp
    have hhalt : FetchesWord s 0x0000#16 ↔ decode w = .instr .halt := fetchesWord_encode_iff (i := .halt) hw
    rcases decode_instr_or_unimplemented w with ⟨i, hd, -⟩ | hd
    · obtain ⟨t, ht⟩ := exec_answers_next s.advancePc i
      refine ⟨t, (step_of_instr hr hw hd).trans ht, ?_⟩
      rw [hhalt, hd, Decoded.instr.injEq]
      rcases exec_status_cases ht with ⟨rfl, hst⟩ | ⟨addr, rfl, hsp, rfl⟩ | ⟨rfl, hsp, rfl⟩ | ⟨hne, hcall, hret, hst⟩
      · exact .inl ⟨hst, rfl, fun ⟨_, hf⟩ => not_fatalCondition_of_instr hw hd nofun nofun hf⟩
      · exact .inr (.inl ⟨rfl, nofun, .stackOverflow, addr, (fetchesWord_encode_iff (i := .call addr) hw).mpr hd, hsp⟩)
      · exact .inr (.inl ⟨rfl, nofun, .stackUnderflow, (fetchesWord_encode_iff (i := .ret) hw).mpr hd, hsp⟩)
      · exact .inr (.inr ⟨hst.trans hr, hne, fun ⟨_, hf⟩ => not_fatalCondition_of_instr hw hd hcall hret hf⟩)
    · refine ⟨_, step_of_unimplementedOpcode hr hw hd, .inr (.inl ⟨rfl, ?_, .unimplementedOpcode, w, hw, hd⟩)⟩
      rw [hhalt, hd]
      nofun
  · have hout : 4095 ≤ s.pc.toNat := not_le.mp hp
    exact ⟨_, step_of_outOfBounds hr hout, .inr (.inl ⟨rfl, fun h => hp h.1, .outOfBounds, hout⟩)⟩

/-- Where each end of a step comes with its own condition, an end is met exactly when its condition holds: the ends
exclude each other, and so do the conditions. -/
theorem status_iffs_of_cases {st : Status} {halts faults : Prop}
    (h : (st = .halted ∧ halts ∧ ¬ faults) ∨ (st = .faulted ∧ ¬ halts ∧ faults) ∨ (st = .running ∧ ¬ halts ∧ ¬ faults)) :
    (st = .halted ↔ halts) ∧ (st = .faulted ↔ faults) ∧ (st = .running ↔ ¬ halts ∧ ¬ faults) := by
  obtain ⟨rfl, hh, hf⟩ | ⟨rfl, hh, hf⟩ | ⟨rfl, hh, hf⟩ := h
  all_goals simp [hh, hf]

/-- Settles O12: the three ends of a step, read as exact conditions. -/
theorem stepTransitionsAreThoseOfTheRunLoop : Obligations.StepTransitionsAreThoseOfTheRunLoop := fun _ hr =>
  (step_status_cases hr).imp fun _ ⟨ht, h⟩ => ⟨ht, status_iffs_of_cases h⟩

theorem step_answers_next (hr : s.status = .running) : ∃ t, step s = .next t :=
  (step_status_cases hr).imp fun _ h => h.1

theorem runFor_of_step_self (h : step s = .next s) (n : Nat) : runFor n s = s := by
  induction n with
  | zero => rfl
  | succ n ih => rw [runFor_succ_of_next n h, ih]

theorem core_run_of_step_self (h : step s = .next s) (n : Nat) : Host.Core.run core n s = .next s := by
  induction n with
  | zero => rfl
  | succ n ih => rw [core_run_succ_of_next n h, ih]

/-- A Jump to its own address puts back the pc that the pre-advance moved (R82, R103). -/
theorem step_of_jump_to_itself {addr : AddrField} (hr : s.status = .running) (hw : FetchesWord s (0x1#4 ++ addr))
    (ha : addr.toNat = s.pc.toNat) : step s = .next s := by
  have hd : decode (0x1#4 ++ addr) = .instr (.jump addr) := (fetchesWord_encode_iff hw).mp hw
  have hpc : targetOf addr = s.pc := BitVec.eq_of_toNat_eq ((targetOf_toNat addr).trans ha)
  calc step s = exec (.jump addr) s.advancePc := step_of_instr hr hw hd
    _ = .next (s.setPc (targetOf addr)) := rfl
    _ = .next s := by rw [hpc]; rfl

theorem ne_running_of_isTerminal {st : Status} (h : st.isTerminal = true) : st ≠ .running := by
  rintro rfl
  cases h

/-- Settles O23: the step is a fixed point, so every bounded run stays at a Running state and none is an end. -/
theorem jumpToItselfRunsForever : Obligations.JumpToItselfRunsForever := by
  intro s addr hr hw ha
  have hself := step_of_jump_to_itself hr hw ha
  refine ⟨hself, fun n => ⟨core_run_of_step_self hself n, runFor_of_step_self hself n⟩, ?_⟩
  rintro t ⟨n, hn, hterm⟩
  rw [startRun_of_running hr, runFor_of_step_self hself] at hn
  exact ne_running_of_isTerminal hterm (hn ▸ hr)

/-- Bounds add up, whatever the status: a run that has ended stays where it is. -/
theorem runFor_add (m n : Nat) (s : State) : runFor (m + n) s = runFor n (runFor m s) := by
  induction m generalizing s with
  | zero => rw [Nat.zero_add, runFor]
  | succ m ih =>
    by_cases hr : s.status = .running
    · obtain ⟨t, ht⟩ := step_answers_next hr
      rw [Nat.succ_add, runFor_succ_of_next _ ht, runFor_succ_of_next _ ht, ih]
    · rw [runFor_of_notRunning _ hr, runFor_of_notRunning _ hr, runFor_of_notRunning _ hr]

/-- A bounded run that is still Running met no end on its way, so all its steps completed. -/
theorem core_run_of_runFor_running {m : Nat} (h : (runFor m s).status = .running) :
    Host.Core.run core m s = .next (runFor m s) := by
  induction m generalizing s with
  | zero => rfl
  | succ m ih =>
    by_cases hr : s.status = .running
    · obtain ⟨t, ht⟩ := step_answers_next hr
      rw [runFor_succ_of_next m ht] at h ⊢
      rw [core_run_succ_of_next m ht, ih h]
    · rw [runFor_of_notRunning _ hr] at h
      exact absurd h hr

theorem runReturns_iff_of_running (hr : s.status = .running) :
    RunReturns s t ↔ ∃ n, runFor n s = t ∧ t.status.isTerminal = true := by
  rw [RunReturns, startRun_of_running hr]

/-- The Run continued from a bounded run's state ends where the Run itself ends. Backwards, `m` more steps leave the end
where it is, and adding the bounds in the other order makes them the first `m`. -/
theorem runReturns_runFor_iff {m : Nat} (hr : s.status = .running) (hm : (runFor m s).status = .running) :
    RunReturns (runFor m s) t ↔ RunReturns s t := by
  rw [runReturns_iff_of_running hr, runReturns_iff_of_running hm]
  constructor
  · rintro ⟨n, hn, hterm⟩
    exact ⟨m + n, (runFor_add m n s).trans hn, hterm⟩
  · rintro ⟨n, hn, hterm⟩
    have hstay : runFor m t = t := runFor_of_notRunning m (ne_running_of_isTerminal hterm)
    refine ⟨n, ?_, hterm⟩
    rw [← runFor_add, Nat.add_comm, runFor_add, hn, hstay]

/-- Settles O51: completed steps, the Run continued, and the sum of the bounds. -/
theorem boundedRunsCompose : Obligations.BoundedRunsCompose := fun m s hr hm =>
  ⟨core_run_of_runFor_running hm, fun _ => runReturns_runFor_iff hr hm, fun n => runFor_add m n s⟩

end Sys2Proof.Machine
end

section
/-! Control flow without the call stack (41_control_flow.md): ClearScreen, which is the pre-advance alone (R101), and Jump,
which replaces it (R103). -/

namespace Sys2Proof.Machine

theorem decode_encode (i : Instr) : decode (encode i) = .instr i :=
  decode_of_encodeNat (encode_toNat i).symm

/-- The frame of every write to pc, the pre-advance and the Jump's transfer alike. -/
theorem sameButPc_setPc (s : State) (a : Addr) : SameButPc s (s.setPc a) :=
  ⟨fun r => reg_setPc s a r, ⟨setPc_sp s a, fun j => slot_setPc s a j⟩, sameMemory_of_mem_eq (setPc_mem s a),
    setPc_status s a, setPc_fault s a⟩

theorem exec_clearScreen (s : State) : exec .clearScreen s = .next s := rfl

theorem exec_jump (addr : AddrField) (s : State) : exec (.jump addr) s = .next (s.setPc (targetOf addr)) := rfl

/-- Settles O16: ClearScreen answers the state it is given, so a step on it is the pre-advance, which writes pc only. -/
theorem clearScreenChangesOnlyThePc : Obligations.ClearScreenChangesOnlyThePc := by
  refine fun s => ⟨⟨s, exec_clearScreen s, rfl, sameButPc_setPc s s.pc⟩, fun hr hw => ?_⟩
  have hstep : step s = .next s.advancePc :=
    (step_of_instr hr hw (decode_encode .clearScreen)).trans (exec_clearScreen s.advancePc)
  exact ⟨s.advancePc, hstep, advance_toNat hw.1, sameButPc_setPc s (s.pc + 2#16)⟩

/-- Settles O19: the word is Jump's encoding, and its arm writes the widened address to pc and nothing else. -/
theorem jumpReplacesThePc : Obligations.JumpReplacesThePc := fun addr s =>
  ⟨decode_encode (.jump addr), _, exec_jump addr s, targetOf_toNat addr, sameButPc_setPc s (targetOf addr)⟩

end Sys2Proof.Machine
end

section
/-! The three conditional skips (42_comparison.md): their common frame and pc (R120 to R122), and the step's advance by 4
or by 2 (R123). -/

namespace Sys2Proof.Machine

variable {i : Instr} {s : State} {p : Prop} [Decidable p]

theorem exec_skipEqualImmediate (x : RegIndex) (kk : Byte) (s : State) :
    exec (.skipEqualImmediate x kk) s = .next (skipIf (decide (s.reg x = kk)) s) := rfl

theorem exec_skipNotEqualImmediate (x : RegIndex) (kk : Byte) (s : State) :
    exec (.skipNotEqualImmediate x kk) s = .next (skipIf (decide (s.reg x ≠ kk)) s) := by
  rw [decide_not]
  rfl

theorem exec_skipEqualRegisters (x y : RegIndex) (s : State) :
    exec (.skipEqualRegisters x y) s = .next (skipIf (decide (s.reg x = s.reg y)) s) := rfl

theorem skipIf_pc_of_holds (h : p) : (skipIf (decide p) s).pc = s.pc + 2#16 := by
  rw [skipIf_pc, decide_eq_true h, if_pos rfl]

theorem skipIf_pc_of_fails (h : ¬ p) : (skipIf (decide p) s).pc = s.pc := by
  rw [skipIf_pc, decide_eq_false h, if_neg Bool.false_ne_true]

theorem sameButPc_skipIf (b : Bool) (s : State) : SameButPc s (skipIf b s) := by
  rw [skipIf_eq]
  exact sameButPc_setPc s _

/-- The step on a skip (R123). The fetch keeps the address at most 4094, so neither advance of pc wraps. -/
theorem step_of_skip (hr : s.status = .running) (hw : FetchesWord s (encode i))
    (hexec : exec i s.advancePc = .next (skipIf (decide p) s.advancePc)) :
    ∃ t, step s = .next t ∧ t.status = .running ∧ t.pc.toNat = s.pc.toNat + if p then 4 else 2 := by
  have hpre : s.advancePc.pc.toNat = s.pc.toNat + 2 := advance_toNat hw.1
  refine ⟨_, (step_of_instr hr hw (decode_encode i)).trans hexec, (status_skipIf _).trans hr, ?_⟩
  by_cases h : p
  · have hfetch : s.pc.toNat ≤ 4094 := hw.1
    rw [skipIf_pc_of_holds h, if_pos h, BitVec.toNat_add, hpre, BitVec.toNat_ofNat]
    omega
  · rw [skipIf_pc_of_fails h, if_neg h, hpre]

/-- Settles O28: each of the three words is its skip's encoding, and the pre-advance leaves the registers that decide. -/
theorem skipAdvancesThePcByFourOrTwo : Obligations.SkipAdvancesThePcByFourOrTwo := fun s x y kk hr =>
  ⟨fun hw => step_of_skip (i := .skipEqualImmediate x kk) hr hw (exec_skipEqualImmediate x kk s.advancePc),
    fun hw => step_of_skip (i := .skipNotEqualImmediate x kk) hr hw (exec_skipNotEqualImmediate x kk s.advancePc),
    fun hw => step_of_skip (i := .skipEqualRegisters x y) hr hw (exec_skipEqualRegisters x y s.advancePc)⟩

/-- Settles O25: the word is the skip's encoding, and its arm is the shared skip on V[x] = kk. -/
theorem skipEqualImmediateComparesTheRegister : Obligations.SkipEqualImmediateComparesTheRegister := fun x kk s =>
  ⟨decode_encode (.skipEqualImmediate x kk), _, exec_skipEqualImmediate x kk s, skipIf_pc_of_holds, skipIf_pc_of_fails,
    sameButPc_skipIf _ s⟩

/-- Settles O26: the shared skip on V[x] ≠ kk, and for exactly one of the two the split on V[x] = kk. -/
theorem skipNotEqualImmediateIsTheInverse : Obligations.SkipNotEqualImmediateIsTheInverse := by
  refine fun x kk s => ⟨decode_encode (.skipNotEqualImmediate x kk),
    ⟨_, exec_skipNotEqualImmediate x kk s, skipIf_pc_of_holds, fun h => skipIf_pc_of_fails (not_not.mpr h),
      sameButPc_skipIf _ s⟩,
    _, _, exec_skipEqualImmediate x kk s, exec_skipNotEqualImmediate x kk s, ?_⟩
  by_cases h : s.reg x = kk
  · exact .inl ⟨skipIf_pc_of_holds h, skipIf_pc_of_fails (not_not.mpr h)⟩
  · exact .inr ⟨skipIf_pc_of_fails h, skipIf_pc_of_holds h⟩

/-- Settles O27: the shared skip on V[x] = V[y], which x = y makes hold. -/
theorem skipEqualRegistersComparesTwoRegisters : Obligations.SkipEqualRegistersComparesTwoRegisters := fun x y s =>
  ⟨decode_encode (.skipEqualRegisters x y), _, exec_skipEqualRegisters x y s, skipIf_pc_of_holds, skipIf_pc_of_fails,
    fun hxy => skipIf_pc_of_holds (congrArg s.reg hxy), sameButPc_skipIf _ s⟩

end Sys2Proof.Machine
end

section
/-! Load, arithmetic and logic without a carry (43_alu.md R140 to R145): each is one write of V[x], so all six share one
frame. -/

namespace Sys2Proof.Machine

theorem exec_loadImmediate (x : RegIndex) (kk : Byte) (s : State) :
    exec (.loadImmediate x kk) s = .next (s.setReg x kk) := rfl

theorem exec_addImmediate (x : RegIndex) (kk : Byte) (s : State) :
    exec (.addImmediate x kk) s = .next (s.setReg x (wrappedSum (s.reg x) kk)) := rfl

theorem exec_move (x y : RegIndex) (s : State) : exec (.move x y) s = .next (s.setReg x (s.reg y)) := rfl

theorem exec_orRegisters (x y : RegIndex) (s : State) :
    exec (.orRegisters x y) s = .next (s.setReg x (s.reg x ||| s.reg y)) := rfl

theorem exec_andRegisters (x y : RegIndex) (s : State) :
    exec (.andRegisters x y) s = .next (s.setReg x (s.reg x &&& s.reg y)) := rfl

theorem exec_xorRegisters (x y : RegIndex) (s : State) :
    exec (.xorRegisters x y) s = .next (s.setReg x (s.reg x ^^^ s.reg y)) := rfl

/-- The frame of every write to a register. -/
theorem sameButRegs_setReg (s : State) (x : RegIndex) (v : Byte) : SameButRegs s (s.setReg x v) :=
  ⟨setReg_pc s x v, ⟨setReg_sp s x v, fun j => slot_setReg s x v j⟩, sameMemory_of_mem_eq (setReg_mem s x v),
    setReg_status s x v, setReg_fault s x v⟩

/-- An instruction that writes `v` to V[x] and nothing else: V[x] has what `v` has, the rest is the frame, and VF is in
it unless x is VF (R148). -/
theorem exec_writes_one_register {i : Instr} {s : State} {x : RegIndex} {v : Byte} (P : Byte → Prop)
    (hexec : exec i s = .next (s.setReg x v)) (hv : P v) :
    ∃ t, exec i s = .next t ∧ P (t.reg x) ∧ (∀ r, r ≠ x → t.reg r = s.reg r) ∧ SameButRegs s t := by
  refine ⟨_, hexec, ?_, fun r hr => reg_setReg_of_beq_false (beq_eq_false_iff_ne.mpr hr), sameButRegs_setReg s x v⟩
  rwa [reg_setReg_same]

/-- Settles O32: the three words are the encodings, and each arm writes V[x] alone, with the bits of its operator. -/
theorem logicIsBitwiseAndWritesNoFlag : Obligations.LogicIsBitwiseAndWritesNoFlag := fun x y s =>
  ⟨decode_encode (.orRegisters x y), decode_encode (.andRegisters x y), decode_encode (.xorRegisters x y),
    exec_writes_one_register (fun v => ∀ b < 8, v.getLsbD b = ((s.reg x).getLsbD b || (s.reg y).getLsbD b))
      (exec_orRegisters x y s) fun _ _ => BitVec.getLsbD_or,
    exec_writes_one_register (fun v => ∀ b < 8, v.getLsbD b = ((s.reg x).getLsbD b && (s.reg y).getLsbD b))
      (exec_andRegisters x y s) fun _ _ => BitVec.getLsbD_and,
    exec_writes_one_register (fun v => ∀ b < 8, v.getLsbD b = Bool.xor ((s.reg x).getLsbD b) ((s.reg y).getLsbD b))
      (exec_xorRegisters x y s) fun _ _ => BitVec.getLsbD_xor⟩

/-- Settles O29: the word is LoadImmediate's encoding, and its arm writes kk to V[x] alone. -/
theorem loadImmediateWritesItsRegisterOnly : Obligations.LoadImmediateWritesItsRegisterOnly := fun x kk s =>
  ⟨decode_encode (.loadImmediate x kk), exec_writes_one_register (· = kk) (exec_loadImmediate x kk s) rfl⟩

/-- Settles O30: the arm writes the wrapped sum to V[x] alone, and that sum is the one modulo 256. -/
theorem addImmediateWrapsAndWritesNoFlag : Obligations.AddImmediateWrapsAndWritesNoFlag := fun x kk s =>
  ⟨decode_encode (.addImmediate x kk),
    exec_writes_one_register (fun v => v.toNat = ((s.reg x).toNat + kk.toNat) % 256) (exec_addImmediate x kk s)
      (wrappedSum_toNat (s.reg x) kk)⟩

/-- Settles O31: the word is Move's encoding, and its arm writes V[y], read before the write, to V[x] alone. -/
theorem moveCopiesTheRegister : Obligations.MoveCopiesTheRegister := fun x y s =>
  ⟨decode_encode (.move x y), exec_writes_one_register (· = s.reg y) (exec_move x y s) rfl⟩

end Sys2Proof.Machine
end

section
/-! Exceptions (60_exceptions.md): a word outside the opcode map (R174), and the CPU State a fault leaves (R176). -/

namespace Sys2Proof.Machine

variable {w : Opcode}

/-- The words the decoder rejects are those outside the opcode map (R76, R77). -/
theorem decode_eq_unimplementedOpcode_of_forall_encode_ne (hw : ∀ i, encode i ≠ w) :
    decode w = .unimplementedOpcode w := by
  rcases decode_instr_or_unimplemented w with ⟨i, -, hi⟩ | hu
  · exact absurd (BitVec.eq_of_toNat_eq ((encode_toNat i).trans hi)) (hw i)
  · exact hu

/-- The frame of a fault raised after the pre-advance (R176). -/
theorem sameCpuButPc_advancePc_raise (s : State) (reason : FaultReason) (addr : Option Addr) (opcode : Option Opcode) :
    SameCpuButPc s (s.advancePc.raise reason addr opcode) :=
  ⟨fun _ => rfl, ⟨rfl, fun _ => rfl⟩, fun _ => rfl⟩

/-- Settles O9: the decoder rejects the word, so the step raises the fault from the pre-advanced state. -/
theorem unimplementedWordFaultsAfterThePreAdvance : Obligations.UnimplementedWordFaultsAfterThePreAdvance :=
  fun s w hr hfetch hw => ⟨s.advancePc.raiseUnimplementedOpcode w, _,
    step_of_unimplementedOpcode hr hfetch (decode_eq_unimplementedOpcode_of_forall_encode_ne hw), raise_status _ _ _ _,
    raise_fault _ _ _ _, rfl, rfl, advance_toNat hfetch.1, sameCpuButPc_advancePc_raise s _ _ _⟩

end Sys2Proof.Machine
end

section
/-! Encoding (30_encoding.md): decode and encode are inverse on words and on bytes (R60, R77), the words outside the
opcode map (R67), and the assembly lines of R74. -/

namespace Sys2Proof

open Machine

variable {w : Opcode} {i : Instr}

/-- The bytes of a recognised word decode as the word does, whatever follows them (R43, R73). -/
theorem decodeBytes_of_decode (h : decode w = .instr i) (rest : List Byte) :
    decodeBytes (wordBytes w ++ rest) = .instr i rest := by
  simp only [wordBytes, List.cons_append, List.nil_append, decodeBytes, bigEndian_bytes, h]

/-- Settles O1: decoding undoes encoding on words, and an instruction's bytes are those of its word. -/
theorem decodeOfEncodeIsTheInstruction : Obligations.DecodeOfEncodeIsTheInstruction := fun i rest _ =>
  ⟨decode_encode i, decodeBytes_of_decode (decode_encode i) rest⟩

theorem encodingRow_statement : ∀ i : Instr, Laws.EncodingRow.Statement i
  | .halt => Laws.EncodingRow.halt
  | .clearScreen => Laws.EncodingRow.clearScreen
  | .ret => Laws.EncodingRow.ret
  | .jump addr => Laws.EncodingRow.jump addr
  | .call addr => Laws.EncodingRow.call addr
  | .skipEqualImmediate x kk => Laws.EncodingRow.skipEqualImmediate x kk
  | .skipNotEqualImmediate x kk => Laws.EncodingRow.skipNotEqualImmediate x kk
  | .skipEqualRegisters x y => Laws.EncodingRow.skipEqualRegisters x y
  | .loadImmediate x kk => Laws.EncodingRow.loadImmediate x kk
  | .addImmediate x kk => Laws.EncodingRow.addImmediate x kk
  | .move x y => Laws.EncodingRow.move x y
  | .orRegisters x y => Laws.EncodingRow.orRegisters x y
  | .andRegisters x y => Laws.EncodingRow.andRegisters x y
  | .xorRegisters x y => Laws.EncodingRow.xorRegisters x y
  | .addRegisters x y => Laws.EncodingRow.addRegisters x y

/-- Every operand is as wide as its field, so no instruction is ill formed (R60 to R65). -/
theorem instr_wellFormed (i : Instr) : i.wellFormed = true := (encodingRow_statement i).1

/-- Settles O2: an instruction decoded from a word has the word's number, and none is ill formed. -/
theorem recognisedWordIsTheEncodingOfItsInstruction : Obligations.RecognisedWordIsTheEncodingOfItsInstruction :=
  fun _ i h => ⟨BitVec.eq_of_toNat_eq ((encode_toNat i).trans (decode_eq_instr_iff.mp h)), instr_wellFormed i⟩

/-- Settles O4: each row of the opcode map lies outside the listed ranges, and a word that no row selects inside one. -/
theorem illegalWordsAreTheRangesOfTheTable : Obligations.IllegalWordsAreTheRangesOfTheTable := by
  intro w
  rcases decode_cases w with ⟨hw, h⟩ | ⟨hw, h⟩ | ⟨hw, h⟩ | ⟨hw, h⟩ | ⟨hw, h⟩ | ⟨hw, h⟩ | ⟨hw, h⟩ | ⟨hw, h⟩ | ⟨hw, h⟩ |
    ⟨hw, h⟩ | ⟨hw, h⟩ | ⟨hw, h⟩ | ⟨hw, h⟩ | ⟨hw, h⟩ | ⟨hw, h⟩ | ⟨h0, hE0, hEE, hrange, h⟩
  pick_goal 16
  · exact iff_of_true h (by omega)
  all_goals
    rw [h]
    exact iff_of_false nofun (by omega)

/-- Settles O5: each recognised word has its instruction's number, and 0xD000 lies past the end of the opcode map. -/
theorem sampleWordsDecodeAsTheVectorsSay : Obligations.SampleWordsDecodeAsTheVectorsSay :=
  ⟨decode_of_encodeNat rfl, decode_of_encodeNat rfl, decode_of_encodeNat rfl, decode_of_encodeNat rfl,
    decode_of_encodeNat rfl, decode_of_encodeNat rfl, decode_of_encodeNat rfl, decode_of_encodeNat rfl,
    decode_of_encodeNat rfl, decode_of_encodeNat rfl, decode_of_encodeNat rfl, decode_of_encodeNat rfl,
    decode_of_encodeNat rfl, decode_of_encodeNat rfl, decode_of_encodeNat rfl, decode_of_family_ge_nine (by decide)⟩

/-- The assembler has an arm for every well-formed line (R74). -/
theorem exists_assemble_of_wellFormed {l : AsmLine} (h : l.wellFormed = true) : ∃ k, l.assemble = some k := by
  have hl := h
  unfold AsmLine.wellFormed at h
  split at h
  pick_goal 17
  · cases h
  all_goals exact ⟨_, if_pos hl⟩

theorem wellFormed_of_assemble {l : AsmLine} {k : Line} (h : l.assemble = some k) : l.wellFormed = true := by
  by_contra hl
  cases (if_neg hl).symm.trans h

/-- The operands written in an instruction's line are its fields' numbers, which the assembler reads back. -/
theorem assemble_asm (i : Instr) : i.asm.assemble = some (.instr i) := by
  refine (if_pos (instr_wellFormed i)).trans ?_
  cases i <;> simp only [Instr.asm, BitVec.ofNat_toNat, BitVec.setWidth_eq]

/-- Settles O6: the assembler's arms are those of the well-formedness check, and it reads an instruction's line back. -/
theorem assemblyLinesAssembleExactlyWhenWellFormed : Obligations.AssemblyLinesAssembleExactlyWhenWellFormed :=
  ⟨fun _ => ⟨exists_assemble_of_wellFormed, fun ⟨_, hk⟩ => wellFormed_of_assemble hk⟩, assemble_asm⟩

end Sys2Proof
end

section
/-! Fatal conditions (60_exceptions.md section 2): the step on each raises its own reason (R170 to R175), so the reason
recorded tells the condition that held, and what the fault leaves (R176, R177). -/

namespace Sys2Proof.Machine

variable {s t : State} {reason other : FaultReason}

theorem faultedFor_raise (s : State) (reason : FaultReason) (addr : Option Addr) (opcode : Option Opcode) :
    FaultedFor reason (s.raise reason addr opcode) :=
  ⟨raise_status s reason addr opcode, _, raise_fault s reason addr opcode, rfl⟩

/-- The frame of a fault raised from the state as it stands (R176). -/
theorem sameCpuButPc_raise (s : State) (reason : FaultReason) (addr : Option Addr) (opcode : Option Opcode) :
    SameCpuButPc s (s.raise reason addr opcode) :=
  ⟨fun r => reg_raise s reason addr opcode r, ⟨raise_sp s reason addr opcode, fun j => slot_raise s reason addr opcode j⟩,
    sameMemory_of_mem_eq (raise_mem s reason addr opcode)⟩

theorem FaultedFor.unique (h : FaultedFor reason t) (h' : FaultedFor other t) : other = reason := by
  obtain ⟨-, r, hr, rfl⟩ := h
  obtain ⟨-, r', hr', rfl⟩ := h'
  cases hr.symm.trans hr'
  rfl

/-- The step on a fatal condition: OutOfBounds is raised from the state as it stands, and every other reason from the
pre-advanced one. -/
theorem step_of_fatalCondition (hr : s.status = .running) (h : FatalCondition s reason) :
    (reason = .outOfBounds ∧ step s = .next s.raiseOutOfBounds) ∨
    (reason ≠ .outOfBounds ∧ Fetchable s ∧ ∃ opcode, step s = .next (s.advancePc.raise reason none opcode)) := by
  cases reason with
  | outOfBounds => exact .inl ⟨rfl, step_of_outOfBounds hr h⟩
  | stackOverflow =>
    obtain ⟨addr, hw, hsp⟩ := h
    exact .inr ⟨nofun, hw.1, none,
      (step_of_instr hr hw (decode_encode (.call addr))).trans (execCall_of_full s.advancePc addr hsp)⟩
  | stackUnderflow =>
    obtain ⟨hw, hsp⟩ := h
    exact .inr ⟨nofun, hw.1, none,
      (step_of_instr hr hw (decode_encode .ret)).trans (execReturn_of_empty s.advancePc hsp)⟩
  | unimplementedOpcode =>
    obtain ⟨w, hw, hd⟩ := h
    exact .inr ⟨nofun, hw.1, some w, step_of_unimplementedOpcode hr hw hd⟩

theorem status_running_of_step (h : step s = .next t) : s.status = .running := (step_next_cases h).1

theorem faultedFor_of_fatalCondition (hs : step s = .next t) (h : FatalCondition s reason) : FaultedFor reason t := by
  rcases step_of_fatalCondition (status_running_of_step hs) h with ⟨rfl, ht⟩ | ⟨-, -, opcode, ht⟩
  · cases ht.symm.trans hs
    exact faultedFor_raise s _ _ _
  · cases ht.symm.trans hs
    exact faultedFor_raise s.advancePc _ _ _

/-- A step faults only on a fatal condition (R88, R170). -/
theorem exists_fatalCondition_of_faulted (hs : step s = .next t) (h : t.status = .faulted) :
    ∃ reason, FatalCondition s reason := by
  obtain ⟨u, hu, -, hfaulted, -⟩ := stepTransitionsAreThoseOfTheRunLoop s (status_running_of_step hs)
  cases hu.symm.trans hs
  exact hfaulted.mp h

/-- Settles O13: a fatal condition makes the step record its own reason, and one record holds one reason. -/
theorem faultReasonIsTheConditionThatHolds : Obligations.FaultReasonIsTheConditionThatHolds := by
  refine fun s t reason hs => ⟨⟨fun h => ?_, faultedFor_of_fatalCondition hs⟩, fun other h h' =>
    (faultedFor_of_fatalCondition hs h).unique (faultedFor_of_fatalCondition hs h')⟩
  obtain ⟨held, hheld⟩ := exists_fatalCondition_of_faulted hs h.1
  cases h.unique (faultedFor_of_fatalCondition hs hheld)
  exact hheld

/-- Settles O14: the state faulted is the raise of the condition that held, from the state before or after the
pre-advance. -/
theorem faultLeavesOnlyThePreAdvance : Obligations.FaultLeavesOnlyThePreAdvance := by
  intro s t hs hfaulted
  obtain ⟨reason, h⟩ := exists_fatalCondition_of_faulted hs hfaulted
  have hreason : FaultedFor reason t := faultedFor_of_fatalCondition hs h
  rcases step_of_fatalCondition (status_running_of_step hs) h with ⟨rfl, ht⟩ | ⟨hne, hfetch, opcode, ht⟩
  · cases ht.symm.trans hs
    exact ⟨sameCpuButPc_raise s _ _ _, fun _ => rfl, fun hn => absurd hreason hn⟩
  · cases ht.symm.trans hs
    exact ⟨sameCpuButPc_advancePc_raise s _ _ _, fun ho => absurd (ho.unique hreason) hne, fun _ => advance_toNat hfetch⟩

/-- Settles O10: the step raises OutOfBounds from the state as it stands, with its pc in the record. -/
theorem outOfBoundsFetchLeavesPcAndRecordsIt : Obligations.OutOfBoundsFetchLeavesPcAndRecordsIt := fun s hr hp =>
  ⟨s.raiseOutOfBounds, _, step_of_outOfBounds hr hp, raise_status _ _ _ _, raise_fault _ _ _ _, rfl, rfl, rfl,
    sameCpuButPc_raise s _ _ _⟩

/-- Settles O11, by the step's answer from a status other than Running. -/
theorem noStepExistsOutsideRunning : Obligations.NoStepExistsOutsideRunning := fun _ => step_of_notRunning

end Sys2Proof.Machine
end

section
/-! Halt, Call and Return (41_control_flow.md): the end of a run (R100, R216), the call stack's push and pop (R102, R104)
with their faults (R172, R173), the round trip (R105) and the Call to itself. -/

namespace Sys2Proof.Machine

variable {s t : State}

theorem exec_halt (s : State) : exec .halt s = .next s.halt := rfl

theorem sameCpuButPc_halt (s : State) : SameCpuButPc s s.halt :=
  ⟨fun r => reg_halt s r, ⟨halt_sp s, fun j => slot_halt s j⟩, sameMemory_of_mem_eq (halt_mem s)⟩

theorem step_of_halt (hr : s.status = .running) (hw : FetchesWord s 0x0000#16) : step s = .next s.advancePc.halt :=
  (step_of_instr hr hw (decode_encode .halt)).trans (exec_halt s.advancePc)

/-- Settles O15: Halt writes status alone, and a step on it adds the pre-advance. -/
theorem haltEndsTheRunAndWritesNothingElse : Obligations.HaltEndsTheRunAndWritesNothingElse := fun s =>
  ⟨⟨s.halt, exec_halt s, halt_status s, halt_pc s, halt_fault s, sameCpuButPc_halt s⟩, fun hr hw =>
    ⟨s.advancePc.halt, step_of_halt hr hw, halt_status _, advance_toNat hw.1, rfl, sameCpuButPc_halt s.advancePc⟩⟩

/-- Settles O50: the step on Halt leaves pc behind it, and Run's entry writes status alone. -/
theorem runAfterHaltResumesBehindIt : Obligations.RunAfterHaltResumesBehindIt := fun s hr hw =>
  ⟨s.advancePc.halt, step_of_halt hr hw, rfl, advance_toNat hw.1, sameCpuButPc_halt s.advancePc⟩

/-- Settles O17, by the pop of an occupied stack. -/
theorem returnPopsTheCallStack : Obligations.ReturnPopsTheCallStack := by
  intro s h
  obtain ⟨t, ht, hsp, hpc, hstack, hregs, hmem, hstatus, hfault, -⟩ := popPc_of_occupied s h
  exact ⟨decode_encode .ret, t, execReturn_of_occupied s ht, hsp, hpc, fun j => by rw [State.slot, State.slot, hstack],
    fun _ => reg_eq_of_regs_eq hregs, sameMemory_of_mem_eq hmem, hstatus, hfault⟩

/-- Settles O18: the pop of the empty stack gives nothing, so the fault is raised from the state as it stands. -/
theorem returnWithAnEmptyStackFaults : Obligations.ReturnWithAnEmptyStackFaults := fun s h =>
  ⟨s.raiseStackUnderflow, execReturn_of_empty s h, faultedFor_raise s _ _ _, raise_pc s _ _ _,
    sameCpuButPc_raise s _ _ _⟩

/-- Settles O20, by the push with a free slot and the transfer, which writes pc only. -/
theorem callPushesThePreAdvancedPc : Obligations.CallPushesThePreAdvancedPc := by
  intro addr s h
  obtain ⟨t, ht, hsp, hslots, hregs, -, hmem, hstatus, hfault, -⟩ := pushPc_of_room s h
  exact ⟨decode_encode (.call addr), t.setPc (targetOf addr), execCall_of_room s addr ht, hsp, hslots,
    targetOf_toNat addr, fun _ => reg_eq_of_regs_eq hregs, sameMemory_of_mem_eq hmem, hstatus, hfault⟩

/-- Settles O21: the push on the full stack gives nothing, so the fault is raised before the transfer. -/
theorem callWithAFullStackFaults : Obligations.CallWithAFullStackFaults := fun addr s h =>
  ⟨s.raiseStackOverflow, execCall_of_full s addr h, faultedFor_raise s _ _ _, raise_pc s _ _ _,
    sameCpuButPc_raise s _ _ _⟩

/-- The step on a Call with a free slot (R104): the return address pushed is p + 2. -/
theorem step_of_call {addr : AddrField} (hr : s.status = .running) (hw : FetchesWord s (0x2#4 ++ addr))
    (hroom : s.sp.val < 16) : ∃ t, step s = .next t ∧ t.status = .running ∧ t.sp.val = s.sp.val + 1 ∧
      (∀ j : Fin 16, t.slot j = if j.val = s.sp.val then s.pc + 2#16 else s.slot j) ∧
      t.pc.toNat = addr.toNat ∧ SameRegs s t ∧ SameMemory s t := by
  obtain ⟨hd, t, ht, hsp, hslots, hpc, hregs, hmem, hstatus, -⟩ := callPushesThePreAdvancedPc addr s.advancePc hroom
  exact ⟨t, (step_of_instr hr hw hd).trans ht, hstatus.trans hr, hsp, hslots, hpc, hregs, hmem⟩

/-- The step on a Return with an occupied stack (R102). -/
theorem step_of_return (hr : s.status = .running) (hw : FetchesWord s 0x00EE#16) (hocc : 0 < s.sp.val) :
    ∃ t, step s = .next t ∧ t.status = .running ∧ t.sp.val + 1 = s.sp.val ∧
      (∀ j : Fin 16, j.val + 1 = s.sp.val → t.pc = s.slot j) ∧ SameRegs s t ∧ SameMemory s t := by
  obtain ⟨hd, t, ht, hsp, hpc, -, hregs, hmem, hstatus, -⟩ := returnPopsTheCallStack s.advancePc hocc
  exact ⟨t, (step_of_instr hr hw hd).trans ht, hstatus.trans hr, hsp, hpc, hregs, hmem⟩

/-- A fetch sees pc and memory only. -/
theorem fetchesWord_of_sameMemory {w : Opcode} {a : Nat} (hpc : t.pc.toNat = a) (hmem : SameMemory s t) (ha : a ≤ 4094)
    (hhi : Memory.byteAt s.mem a = highByte w) (hlo : Memory.byteAt s.mem (a + 1) = lowByte w) : FetchesWord t w := by
  subst hpc
  exact ⟨ha, (hmem _).trans hhi, (hmem _).trans hlo⟩

/-- Settles O22: the Return pops the slot the Call pushed. -/
theorem callThenReturnResumesAfterTheCall : Obligations.CallThenReturnResumesAfterTheCall := by
  intro s addr hr hw hroom haddr hhi hlo
  obtain ⟨t, ht, hrt, hspt, hslot, hpct, hregst, hmemt⟩ := step_of_call hr hw hroom
  have hret : FetchesWord t 0x00EE#16 := fetchesWord_of_sameMemory hpct hmemt haddr hhi hlo
  obtain ⟨u, hu, hru, hspu, hpcu, hregsu, hmemu⟩ := step_of_return hrt hret (by omega)
  have hpc : u.pc = s.pc + 2#16 := by rw [hpcu ⟨s.sp.val, hroom⟩ hspt.symm, hslot, if_pos rfl]
  exact ⟨t, u, ht, hu, by rw [hpc, advance_toNat hw.1], Fin.ext (by omega), hru,
    fun r => (hregsu r).trans (hregst r), fun a => (hmemu a).trans (hmemt a)⟩

/-- The loop of a Call to its own address with `n` Calls completed: the state has come back to the Call, and the `n`
lowest slots hold the address behind it. -/
structure SelfCalls (addr : AddrField) (n : Nat) (s : State) : Prop where
  status : s.status = .running
  fetches : FetchesWord s (0x2#4 ++ addr)
  pc : s.pc.toNat = addr.toNat
  sp : s.sp.val = n
  slots : ∀ j : Fin 16, j.val < n → (s.slot j).toNat = addr.toNat + 2

theorem SelfCalls.step {addr : AddrField} {n : Nat} (h : SelfCalls addr n s) (hn : n < 16) :
    ∃ t, step s = .next t ∧ SelfCalls addr (n + 1) t := by
  obtain ⟨hr, hw, hpc, hsp, hslots⟩ := h
  obtain ⟨t, ht, hrt, hspt, hslott, hpct, -, hmemt⟩ := step_of_call hr hw (by omega)
  have hfetch : FetchesWord t (0x2#4 ++ addr) :=
    fetchesWord_of_sameMemory (hpct.trans hpc.symm) hmemt hw.1 hw.2.1 hw.2.2
  refine ⟨t, ht, hrt, hfetch, hpct, by omega, fun j hj => ?_⟩
  rw [hslott]
  by_cases hjn : j.val = s.sp.val
  · rw [if_pos hjn, advance_toNat hw.1, hpc]
  · rw [if_neg hjn, hslots j (by omega)]

theorem SelfCalls.runFor {addr : AddrField} (h : SelfCalls addr 0 s) {n : Nat} (hn : n ≤ 16) :
    SelfCalls addr n (runFor n s) := by
  induction n with
  | zero => exact h
  | succ n ih =>
    obtain ⟨t, ht, hnext⟩ := (ih (by omega)).step (by omega)
    rwa [runFor_add, runFor_succ_of_next 0 ht]

/-- Settles O24: sixteen Calls fill the stack, and on the full stack the seventeenth is fatal. -/
theorem callToItselfOverflowsOnTheSeventeenth : Obligations.CallToItselfOverflowsOnTheSeventeenth := by
  intro s addr hr hw hpc hsp
  have hstart : SelfCalls addr 0 s := ⟨hr, hw, hpc.symm, hsp, nofun⟩
  obtain ⟨hr16, hw16, hpc16, hsp16, hslots16⟩ := hstart.runFor (n := 16) le_rfl
  have hlast : step (runFor 16 s) = .next (runFor 16 s).advancePc.raiseStackOverflow :=
    (step_of_instr hr16 hw16 (decode_encode (.call addr))).trans (execCall_of_full _ addr hsp16)
  rw [← hpc, runFor_add 16 1, runFor_succ_of_next 0 hlast]
  exact ⟨hr16, hsp16, faultedFor_raise _ _ _ _, hsp16, (advance_toNat hw16.1).trans (by rw [hpc16]),
    fun j => hslots16 j j.isLt⟩

end Sys2Proof.Machine
end

section
/-! What an instruction reads and writes (10_state.md, 20_memory.md): registers (R21), the call stack (R28, R29), status
and fault record (R34). -/

namespace Sys2Proof.Machine

variable {i : Instr} {s t : State} {x : RegIndex}

theorem exec_addRegisters (x y : RegIndex) (s : State) : exec (.addRegisters x y) s =
    .next ((s.setReg x (wrappedSum (s.reg x) (s.reg y))).setReg 0xF#4 (carryFlag (s.reg x) (s.reg y))) := rfl

/-- The frame of AddRegisters' two writes. -/
theorem sameButRegs_setReg_setReg (s : State) (x y : RegIndex) (v w : Byte) :
    SameButRegs s ((s.setReg x v).setReg y w) :=
  ⟨rfl, ⟨rfl, fun _ => rfl⟩, fun _ => rfl, rfl, rfl⟩

/-- Settles O33: the sum is written first and the carry over it, both from the values before. -/
theorem addRegistersSetsTheSumAndTheCarry : Obligations.AddRegistersSetsTheSumAndTheCarry := by
  refine fun x y s => ⟨decode_encode (.addRegisters x y), _, exec_addRegisters x y s, fun hx => ?_, ?_,
    fun r hx hvf => ?_, sameButRegs_setReg_setReg s x 0xF#4 _ _⟩
  · rw [reg_setReg, if_neg hx, reg_setReg_same, wrappedSum_toNat]
  · rw [reg_setReg_same, carryFlag_toNat]
  · rw [reg_setReg, if_neg hvf, reg_setReg, if_neg hx]

/-- Settles O35: every instruction answers a state, and R21's write column is its register frame. -/
theorem registersWrittenAreThoseOfTheTable : Obligations.RegistersWrittenAreThoseOfTheTable := fun i s =>
  (exec_answers_next s i).imp fun _ ht => ⟨ht, fun _ hw => reg_of_exec_of_not_writesReg ht hw⟩

theorem skipIf_with_stack (slots : Vector Addr 16) (n : Fin 17) (b : Bool) :
    skipIf b { s with stack := slots, sp := n } = { skipIf b s with stack := slots, sp := n } := by
  rw [skipIf_eq, skipIf_eq]
  rfl

/-- An instruction other than Call and Return carries the call stack through untouched (R28, R29). -/
theorem exec_with_stack (slots : Vector Addr 16) (n : Fin 17) (hret : i ≠ .ret) (hcall : ∀ addr, i ≠ .call addr)
    (h : exec i s = .next t) :
    exec i { s with stack := slots, sp := n } = .next { t with stack := slots, sp := n } := by
  cases i with
  | ret => exact absurd rfl hret
  | call addr => exact absurd rfl (hcall addr)
  | skipEqualImmediate x kk => cases h; exact congrArg _ (skipIf_with_stack slots n _)
  | skipNotEqualImmediate x kk => cases h; exact congrArg _ (skipIf_with_stack slots n _)
  | skipEqualRegisters x y => cases h; exact congrArg _ (skipIf_with_stack slots n _)
  | halt | clearScreen | jump _ | loadImmediate _ _ | addImmediate _ _ | move _ _ | orRegisters _ _
  | andRegisters _ _ | xorRegisters _ _ | addRegisters _ _ => cases h; rfl

/-- The frame of the call stack, from the law above at the stack the state has. -/
theorem sameStack_of_exec (hret : i ≠ .ret) (hcall : ∀ addr, i ≠ .call addr) (h : exec i s = .next t) :
    SameStack s t := by
  have hsame : exec i s = .next { t with stack := s.stack, sp := s.sp } := exec_with_stack s.stack s.sp hret hcall h
  rw [Host.Outcome.next.inj (h.symm.trans hsame)]
  exact ⟨rfl, fun _ => rfl⟩

/-- Settles O38: all but Call and Return carry any call stack through, their own included. -/
theorem onlyCallAndReturnReachTheCallStack : Obligations.OnlyCallAndReturnReachTheCallStack :=
  fun i s slots n hret hcall => (exec_answers_next s i).imp fun _ ht =>
    ⟨ht, sameStack_of_exec hret hcall ht, exec_with_stack slots n hret hcall ht⟩

/-- A pop depends on the call stack only: registers, status and fault record go through it untouched. -/
theorem popPc_with_regs_run (vs : Vector Byte 16) (st : Status) (f : Option FaultRecord) (h : s.popPc = some t) :
    ({ s with regs := vs, status := st, fault := f } : State).popPc =
      some { t with regs := vs, status := st, fault := f } := by
  by_cases h0 : s.sp.val = 0
  · cases (popPc_of_empty s h0).symm.trans h
  · cases (dif_neg h0).symm.trans h
    exact dif_neg h0

/-- A push depends on the call stack and pc only. -/
theorem pushPc_with_regs_run (vs : Vector Byte 16) (st : Status) (f : Option FaultRecord) (h : s.pushPc = some t) :
    ({ s with regs := vs, status := st, fault := f } : State).pushPc =
      some { t with regs := vs, status := st, fault := f } := by
  by_cases hfull : s.sp.val = 16
  · cases (pushPc_of_full s hfull).symm.trans h
  · cases (dif_neg hfull).symm.trans h
    exact dif_neg hfull

/-- A fact about the registers of a two-register row of R21 is the fact about each. -/
theorem forall_beq_or {y : RegIndex} {p : RegIndex → Prop} : (∀ r, (r == x || r == y) = true → p r) ↔ p x ∧ p y := by
  simp only [Bool.or_eq_true, beq_iff_eq, or_imp, forall_and, forall_eq]

/-- The registers, status and fault record that an instruction finds reach only those it leaves: status and fault record
are left alike where they were found alike, and the registers it writes in any case. -/
def ActsAlike (i : Instr) (s : State) (vs : Vector Byte 16) (st : Status) (f : Option FaultRecord) : Prop :=
  ∃ (t : State) (vs' : Vector Byte 16) (st' : Status) (f' : Option FaultRecord), exec i s = .next t ∧
    exec i { s with regs := vs, status := st, fault := f } = .next { t with regs := vs', status := st', fault := f' } ∧
    (st = s.status → f = s.fault → st' = t.status ∧ f' = t.fault) ∧
    ∀ r, writesReg i r = true → ({ t with regs := vs' } : State).reg r = t.reg r

section

variable {vs : Vector Byte 16} {st : Status} {f : Option FaultRecord}

/-- Return: where the stack is empty, StackUnderflow writes status and fault record from the shared draw counter. -/
theorem actsAlike_ret : ActsAlike .ret s vs st f := by
  rcases Nat.eq_zero_or_pos s.sp.val with h0 | h0
  · exact ⟨_, vs, _, _, execReturn_of_empty s h0, execReturn_of_empty _ h0, fun _ _ => ⟨rfl, rfl⟩, nofun⟩
  · obtain ⟨t, ht, -, -, -, -, -, hstatus, hfault, -⟩ := popPc_of_occupied s h0
    exact ⟨t, vs, st, f, execReturn_of_occupied s ht, execReturn_of_occupied _ (popPc_with_regs_run vs st f ht),
      fun hst hf => ⟨hst.trans hstatus.symm, hf.trans hfault.symm⟩, nofun⟩

/-- Call: likewise where the stack is full. -/
theorem actsAlike_call (addr : AddrField) : ActsAlike (.call addr) s vs st f := by
  by_cases hfull : s.sp.val = 16
  · exact ⟨_, vs, _, _, execCall_of_full s addr hfull, execCall_of_full _ addr hfull, fun _ _ => ⟨rfl, rfl⟩, nofun⟩
  · obtain ⟨t, ht, -, -, -, -, -, hstatus, hfault, -⟩ := pushPc_of_room s (by omega)
    exact ⟨_, vs, st, f, execCall_of_room s addr ht, execCall_of_room _ addr (pushPc_with_regs_run vs st f ht),
      fun hst hf => ⟨hst.trans hstatus.symm, hf.trans hfault.symm⟩, nofun⟩

/-- A skip whose condition is the same in both states. -/
theorem actsAlike_of_skip {b : State → Bool} (h : ∀ s, exec i s = .next (skipIf (b s) s))
    (hb : b { s with regs := vs, status := st, fault := f } = b s) (hw : ∀ r, writesReg i r = false) :
    ActsAlike i s vs st f := by
  simp only [skipIf_eq] at h
  exact ⟨_, vs, st, f, h s, by rw [h, hb]; rfl, And.intro, fun r hr => absurd hr (ne_true_of_eq_false (hw r))⟩

/-- A write of a value that is the same in both states to the same register. -/
theorem actsAlike_of_setReg {v : State → Byte} (h : ∀ s, exec i s = .next (s.setReg x (v s)))
    (hv : v { s with regs := vs, status := st, fault := f } = v s) (hw : ∀ r, writesReg i r = true → r = x) :
    ActsAlike i s vs st f := by
  refine ⟨_, _, st, f, h s, h _, And.intro, fun r hr => ?_⟩
  cases hw r hr
  exact reg_setReg_same.trans (hv.trans reg_setReg_same.symm)

/-- Every instruction acts alike on two states whose registers agree where it reads them. -/
theorem exec_actsAlike
    (hreads : ∀ r, readsReg i r = true → ({ s with regs := vs, status := st, fault := f } : State).reg r = s.reg r) :
    ActsAlike i s vs st f := by
  cases i with
  | ret => exact actsAlike_ret
  | call addr => exact actsAlike_call addr
  | halt => exact ⟨s.halt, vs, .halted, f, rfl, rfl, fun _ hf => ⟨rfl, hf⟩, nofun⟩
  | clearScreen => exact ⟨s, vs, st, f, rfl, rfl, And.intro, nofun⟩
  | jump addr => exact ⟨s.setPc (targetOf addr), vs, st, f, rfl, rfl, And.intro, nofun⟩
  | skipEqualImmediate x kk =>
    have hx := hreads x (beq_self_eq_true x)
    exact actsAlike_of_skip (exec_skipEqualImmediate x kk) (by rw [hx]) fun _ => rfl
  | skipNotEqualImmediate x kk =>
    have hx := hreads x (beq_self_eq_true x)
    exact actsAlike_of_skip (exec_skipNotEqualImmediate x kk) (by rw [hx]) fun _ => rfl
  | skipEqualRegisters x y =>
    obtain ⟨hx, hy⟩ := forall_beq_or.mp hreads
    exact actsAlike_of_skip (exec_skipEqualRegisters x y) (by rw [hx, hy]) fun _ => rfl
  | loadImmediate x kk => exact actsAlike_of_setReg (exec_loadImmediate x kk) rfl fun _ => eq_of_beq
  | addImmediate x kk =>
    have hx := hreads x (beq_self_eq_true x)
    exact actsAlike_of_setReg (exec_addImmediate x kk) (by rw [hx]) fun _ => eq_of_beq
  | move x y =>
    exact actsAlike_of_setReg (exec_move x y) (hreads y (beq_self_eq_true y)) fun _ => eq_of_beq
  | orRegisters x y =>
    obtain ⟨hx, hy⟩ := forall_beq_or.mp hreads
    exact actsAlike_of_setReg (exec_orRegisters x y) (by rw [hx, hy]) fun _ => eq_of_beq
  | andRegisters x y =>
    obtain ⟨hx, hy⟩ := forall_beq_or.mp hreads
    exact actsAlike_of_setReg (exec_andRegisters x y) (by rw [hx, hy]) fun _ => eq_of_beq
  | xorRegisters x y =>
    obtain ⟨hx, hy⟩ := forall_beq_or.mp hreads
    exact actsAlike_of_setReg (exec_xorRegisters x y) (by rw [hx, hy]) fun _ => eq_of_beq
  | addRegisters x y =>
    obtain ⟨hx, hy⟩ := forall_beq_or.mp hreads
    refine ⟨_, _, st, f, exec_addRegisters x y s, exec_addRegisters x y _, And.intro, fun r hr => ?_⟩
    change State.reg (State.setReg (State.setReg _ x _) 0xF#4 _) r = _
    rw [hx, hy]
    rcases Bool.or_eq_true_iff.mp hr with hrx | hvf
    · cases eq_of_beq hrx
      simp only [reg_setReg, if_true]
    · cases eq_of_beq hvf
      exact reg_setReg_same.trans reg_setReg_same.symm

end

/-- Settles O36: with status and fault record the same, only registers the instruction does not write can differ. -/
theorem registersReadAreThoseOfTheTable : Obligations.RegistersReadAreThoseOfTheTable := by
  intro i s vs hreads
  obtain ⟨t, vs', st', f', ht, hu, hrun, hregs⟩ : ActsAlike i s vs s.status s.fault := exec_actsAlike hreads
  exact ⟨t, _, ht, hu, rfl, ⟨rfl, fun _ => rfl⟩, fun _ => rfl, hrun rfl rfl, hregs⟩

/-- Settles O39: with the registers the same, those written are left alike and the others stay. -/
theorem statusAndFaultRecordAreReadByNoInstruction : Obligations.StatusAndFaultRecordAreReadByNoInstruction := by
  intro i s st f
  obtain ⟨t, vs', st', f', ht, hu, -, hregs⟩ : ActsAlike i s s.regs st f := exec_actsAlike fun _ _ => rfl
  refine ⟨t, _, ht, hu, rfl, fun r => ?_, ⟨rfl, fun _ => rfl⟩, fun _ => rfl⟩
  cases hw : writesReg i r with
  | true => exact hregs r hw
  | false =>
    calc State.reg { t with regs := vs', status := st', fault := f' } r
        = State.reg { s with status := st, fault := f } r := reg_of_exec_of_not_writesReg hu hw
      _ = s.reg r := rfl
      _ = t.reg r := (reg_of_exec_of_not_writesReg ht hw).symm

end Sys2Proof.Machine
end

section
/-! What every step keeps: the bounds on pc (10_state.md R25) and on the slots (41_control_flow.md R104), the record of a
fault (R32), and memory while the block runs (20_memory.md R49). -/

namespace Sys2Proof.Machine

variable {i : Instr} {s t : State}

theorem skipIf_pc_cases (b : Bool) (s : State) : (skipIf b s).pc = s.pc ∨ (skipIf b s).pc = s.pc + 2#16 := by
  cases b with
  | false => exact .inl rfl
  | true => exact .inr rfl

/-- Where an instruction can leave pc: at the pre-advanced value, a word further, at a 12-bit target or at a slot. -/
theorem exec_pc_cases (h : exec i s = .next t) :
    (t.pc = s.pc ∨ t.pc = s.pc + 2#16) ∨ (∃ addr : AddrField, t.pc.toNat = addr.toNat) ∨
    (i = .ret ∧ ∃ j : Fin 16, j.val + 1 = s.sp.val ∧ t.pc = s.slot j) := by
  cases i with
  | ret =>
    rcases Nat.eq_zero_or_pos s.sp.val with h0 | h0
    · cases (execReturn_of_empty s h0).symm.trans h
      exact .inl (.inl rfl)
    · obtain ⟨u, hu, -, hpc, -⟩ := popPc_of_occupied s h0
      cases (execReturn_of_occupied s hu).symm.trans h
      have hj : s.sp.val - 1 + 1 = s.sp.val := Nat.sub_add_cancel h0
      exact .inr (.inr ⟨rfl, ⟨s.sp.val - 1, by omega⟩, hj, hpc _ hj⟩)
  | call addr =>
    by_cases hfull : s.sp.val = 16
    · cases (execCall_of_full s addr hfull).symm.trans h
      exact .inl (.inl rfl)
    · obtain ⟨-, u, hu, -, -, hpc, -⟩ := callPushesThePreAdvancedPc addr s (by omega)
      cases hu.symm.trans h
      exact .inr (.inl ⟨addr, hpc⟩)
  | jump addr => cases h; exact .inr (.inl ⟨addr, targetOf_toNat addr⟩)
  | skipEqualImmediate _ _ | skipNotEqualImmediate _ _ | skipEqualRegisters _ _ =>
    cases h
    exact .inl (skipIf_pc_cases _ s)
  | halt | clearScreen | loadImmediate _ _ | addImmediate _ _ | move _ _ | orRegisters _ _ | andRegisters _ _
  | xorRegisters _ _ | addRegisters _ _ => cases h; exact .inl (.inl rfl)

/-- Settles O40: a fetch succeeds from 4094 at most, and the pre-advance and a taken skip add 4 to that. -/
theorem pcAfterAStepIsBounded : Obligations.PcAfterAStepIsBounded := by
  intro s t hs
  obtain ⟨-, ⟨hp, rfl⟩ | ⟨w, i, hw, hd, hexec⟩ | ⟨w, v, hw, -, rfl⟩⟩ := step_next_cases hs
  · exact .inr (.inl ⟨hp, rfl⟩)
  · have hfetch : s.pc.toNat ≤ 4094 := hw.1
    have hpre : s.advancePc.pc.toNat = s.pc.toNat + 2 := advance_toNat hw.1
    rcases exec_pc_cases hexec with (hpc | hpc) | ⟨addr, hpc⟩ | ⟨rfl, hslot⟩
    · left
      rw [hpc]
      omega
    · left
      rw [hpc, BitVec.toNat_add, hpre, BitVec.toNat_ofNat]
      omega
    · left
      omega
    · exact .inr (.inr ⟨(fetchesWord_encode_iff (i := .ret) hw).mpr hd, hslot⟩)
  · left
    have hfetch : s.pc.toNat ≤ 4094 := hw.1
    have hpre : (s.pc + 2#16).toNat = s.pc.toNat + 2 := advance_toNat hw.1
    exact hpre.trans_le (by omega)

/-- A slot keeps its value but where a Call pushes the pc it was given. -/
theorem exec_slot_cases (h : exec i s = .next t) (j : Fin 16) : t.slot j = s.slot j ∨ t.slot j = s.pc := by
  by_cases hret : i = .ret
  · subst hret
    rcases Nat.eq_zero_or_pos s.sp.val with h0 | h0
    · cases (execReturn_of_empty s h0).symm.trans h
      exact .inl rfl
    · obtain ⟨-, u, hu, -, -, hslot, -⟩ := returnPopsTheCallStack s h0
      cases hu.symm.trans h
      exact .inl (hslot j)
  by_cases hcall : ∃ addr, i = .call addr
  · obtain ⟨addr, rfl⟩ := hcall
    by_cases hfull : s.sp.val = 16
    · cases (execCall_of_full s addr hfull).symm.trans h
      exact .inl rfl
    · obtain ⟨-, u, hu, -, hslot, -⟩ := callPushesThePreAdvancedPc addr s (by omega)
      cases hu.symm.trans h
      rw [hslot]
      exact (ite_eq_or_eq _ _ _).symm
  · exact .inl ((sameStack_of_exec hret (fun addr ha => hcall ⟨addr, ha⟩) h).2 j)

/-- The only new value of a slot is the p + 2 of a word that was fetched (R104). -/
theorem slot_le_of_step (hs : step s = .next t) (h : ∀ j, (s.slot j).toNat ≤ 4096) (j : Fin 16) :
    (t.slot j).toNat ≤ 4096 := by
  obtain ⟨-, ⟨-, rfl⟩ | ⟨w, i, hw, -, hexec⟩ | ⟨w, v, -, -, rfl⟩⟩ := step_next_cases hs
  · exact h j
  · rcases exec_slot_cases hexec j with hj | hj
    · rw [hj]
      exact h j
    · have hfetch : s.pc.toNat ≤ 4094 := hw.1
      have hpre : s.advancePc.pc.toNat = s.pc.toNat + 2 := advance_toNat hw.1
      rw [hj]
      omega
  · exact h j

/-- Settles O41, clause by clause: steps keep memory, slots take p + 2 at most, a pc above 4098 would have to be found in
pc or in a slot, and a step that faults records a reason. -/
theorem everyStepKeepsTheBlockInvariant : Obligations.EveryStepKeepsTheBlockInvariant := by
  intro s t ⟨hmem, hslots, hpc, _⟩ hs
  refine ⟨by rwa [mem_of_step hs], slot_le_of_step hs hslots, ?_, fun hfaulted => ?_⟩
  · rcases pcAfterAStepIsBounded s t hs with h | ⟨-, h⟩ | ⟨-, j, -, h⟩
    · exact h
    · rwa [h]
    · rw [h]
      exact (hslots j).trans (by decide)
  · obtain ⟨reason, h⟩ := exists_fatalCondition_of_faulted hs hfaulted
    obtain ⟨-, r, hr, -⟩ := faultedFor_of_fatalCondition hs h
    rw [hr, Option.isSome_some]

/-- Settles O42: everything at reset is zero, and its status is Idle. -/
theorem resetMeetsTheBlockInvariant : Obligations.ResetMeetsTheBlockInvariant :=
  ⟨rfl, fun j => by rw [slot_reset]; decide, by decide, nofun⟩

theorem mem_of_reaches (h : Reaches s t) : t.mem = s.mem := by
  induction h with
  | here => rfl
  | step _ hs ih => exact (mem_of_step hs).trans ih

theorem mem_runFor (n : Nat) (s : State) : (runFor n s).mem = s.mem := by
  induction n generalizing s with
  | zero => rfl
  | succ n ih =>
    by_cases hr : s.status = .running
    · obtain ⟨t, ht⟩ := step_answers_next hr
      rw [runFor_succ_of_next n ht, ih, mem_of_step ht]
    · rw [runFor_of_notRunning _ hr]

/-- Settles O43: no step writes memory, by induction on the steps. -/
theorem memoryIsConstantDuringARun : Obligations.MemoryIsConstantDuringARun :=
  ⟨fun _ _ h => sameMemory_of_mem_eq (mem_of_reaches h), fun n s => sameMemory_of_mem_eq (mem_runFor n s)⟩

end Sys2Proof.Machine
end

section
/-! The ends of a Run (40_fetch_execute.md): terminal states stay (R91), and a Run has at most one (R94). -/

namespace Sys2Proof.Machine

theorem runFor_add_of_notRunning {m : Nat} {s : State} (n : Nat) (h : (runFor m s).status ≠ .running) :
    runFor (m + n) s = runFor m s := by
  rw [runFor_add, runFor_of_notRunning n h]

/-- Settles O52: neither a terminal status nor a Faulted one is Running, and from no other status is there a step. -/
theorem terminalStatesAreAbsorbing : Obligations.TerminalStatesAreAbsorbing := by
  refine fun m n s => ⟨fun h => runFor_add_of_notRunning n (ne_running_of_isTerminal h), fun h => ?_⟩
  have hfaulted : (runFor m s).status = .faulted := not_not.mp h
  rwa [SafeFor, runFor_add_of_notRunning n (by rw [hfaulted]; nofun)]

theorem halted_or_faulted_of_isTerminal {st : Status} (h : st.isTerminal = true) : st = .halted ∨ st = .faulted := by
  cases st with
  | halted => exact .inl rfl
  | faulted => exact .inr rfl
  | idle | running => cases h

/-- Settles O53: both ends are the state after the sum of their steps. -/
theorem runEndsInOneTerminalState : Obligations.RunEndsInOneTerminalState := by
  rintro s t u ⟨m, rfl, ht⟩ ⟨n, rfl, hu⟩
  refine ⟨?_, halted_or_faulted_of_isTerminal ht⟩
  calc runFor m (startRun s) = runFor (m + n) (startRun s) :=
        (runFor_add_of_notRunning n (ne_running_of_isTerminal ht)).symm
    _ = runFor (n + m) (startRun s) := by rw [Nat.add_comm]
    _ = runFor n (startRun s) := runFor_add_of_notRunning m (ne_running_of_isTerminal hu)

end Sys2Proof.Machine
end

section
/-! The canonical form of memory (20_memory.md R40, log entry 2): a memory is determined by what it reads as. -/

namespace Sys2Proof.Machine

variable {m n : Memory} {lo k : Nat} {v : Byte}

theorem wfFrom_cons_iff : Memory.wfFrom lo ((k, v) :: m) = true ↔
    lo ≤ k ∧ k < Config.memSize ∧ v ≠ unlistedByte ∧ Memory.wfFrom (k + 1) m = true := by
  simp only [Memory.wfFrom, Bool.and_eq_true, decide_eq_true_eq, and_assoc]

/-- A canonical memory is canonical from its first address on. -/
theorem wfFrom_head (h : Memory.wfFrom lo ((k, v) :: m) = true) : Memory.wfFrom k ((k, v) :: m) = true :=
  wfFrom_cons_iff.mpr ⟨le_rfl, (wfFrom_cons_iff.mp h).2⟩

theorem byteAt_cons_same : Memory.byteAt ((k, v) :: m) k = v := by
  rw [byteAt_cons, if_pos rfl]

/-- A memory that lists nothing below `lo` does not read like one whose first cell is below `lo`. -/
theorem byteAt_ne_cons (hn : Memory.wfFrom lo n = true) (hk : k < lo) (hv : v ≠ unlistedByte) :
    Memory.byteAt n k ≠ Memory.byteAt ((k, v) :: m) k := by
  rw [byteAt_of_lt_lo hn hk, byteAt_cons_same]
  exact hv.symm

/-- Canonical memories that read alike are the same list: neither can list an address before the other does, so their
first cells agree, and below their tails both tails read as unlisted. -/
theorem eq_of_byteAt_eq (hm : Memory.wfFrom lo m = true) (hn : Memory.wfFrom lo n = true)
    (h : ∀ a, Memory.byteAt m a = Memory.byteAt n a) : m = n := by
  induction m generalizing lo n with
  | nil =>
    cases n with
    | nil => rfl
    | cons c n =>
      obtain ⟨k, v⟩ := c
      obtain ⟨-, -, hv, -⟩ := wfFrom_cons_iff.mp hn
      exact absurd (h k) (byteAt_ne_cons (lo := k + 1) rfl k.lt_succ_self hv)
  | cons c m ih =>
    obtain ⟨k, v⟩ := c
    obtain ⟨-, -, hv, hm'⟩ := wfFrom_cons_iff.mp hm
    cases n with
    | nil => exact absurd (h k).symm (byteAt_ne_cons (lo := k + 1) rfl k.lt_succ_self hv)
    | cons c n =>
      obtain ⟨l, w⟩ := c
      obtain ⟨-, -, hw, hn'⟩ := wfFrom_cons_iff.mp hn
      rcases Nat.lt_trichotomy k l with hkl | rfl | hlk
      · exact absurd (h k).symm (byteAt_ne_cons (wfFrom_head hn) hkl hv)
      · have hvw : v = w := by simpa only [byteAt_cons_same] using h k
        have htail : ∀ a, Memory.byteAt m a = Memory.byteAt n a := by
          intro a
          by_cases ha : k = a
          · subst ha
            rw [byteAt_of_lt_lo hm' k.lt_succ_self, byteAt_of_lt_lo hn' k.lt_succ_self]
          · simpa only [byteAt_cons, if_neg ha] using h a
        rw [hvw, ih hm' hn' htail]
      · exact absurd (h l) (byteAt_ne_cons (wfFrom_head hm) hlk hw)

/-- Settles O54, by induction on the first memory, cell by cell from the lowest address. -/
theorem canonicalMemoriesAreEqualData : Obligations.CanonicalMemoriesAreEqualData := fun _ _ hm hn h =>
  eq_of_byteAt_eq hm hn h

end Sys2Proof.Machine
end

section
/-! Reset and the host (70_reset_and_hazards.md): Initialize (R205), the host's writes (R206 to R208) and the program image
with the boot sequence (R203, R204). -/

namespace Sys2Proof.Machine

variable {s t : State}

@[simp] theorem hostInitialize_mem (s : State) : (hostInitialize s).mem = [] := rfl

@[simp] theorem hostInitialize_status (s : State) : (hostInitialize s).status = .idle := rfl

@[simp] theorem reg_hostInitialize (s : State) (r : RegIndex) : (hostInitialize s).reg r = 0#8 := reg_reset r

@[simp] theorem slot_hostInitialize (s : State) (j : Fin 16) : (hostInitialize s).slot j = 0#16 := slot_reset j

/-- Settles O44, field by field; an address of the empty memory reads as 0. -/
theorem initializeZeroesEveryField : Obligations.InitializeZeroesEveryField := fun s =>
  ⟨reg_hostInitialize s, rfl, byteAt_nil, slot_hostInitialize s, rfl, hostInitialize_status s, rfl, rfl⟩

theorem unlessRunning_of_notRunning (h : s.status ≠ .running) : unlessRunning s t = .next t := if_neg h

theorem unlessRunning_of_running (h : s.status = .running) :
    unlessRunning s t = .refused .hostWriteWhileRunning := if_pos h

/-- A number that fits a word is the word's number. -/
theorem toNat_ofNat_of_lt {n v : Nat} (hv : v < 2 ^ n) : (BitVec.ofNat n v).toNat = v :=
  (BitVec.toNat_ofNat v n).trans (Nat.mod_eq_of_lt hv)

theorem hostWriteMem_of_inRange {a v : Nat} (ha : a ≤ 4095) (hv : v ≤ 255) :
    hostWriteMem a v s = unlessRunning s { s with mem := Memory.write s.mem a (BitVec.ofNat 8 v) } :=
  (if_pos ha).trans (if_pos hv)

theorem hostWriteMem_of_outOfRange {a v : Nat} (h : 4095 < a ∨ 255 < v) : ∃ r, hostWriteMem a v s = .refused r := by
  by_cases ha : a ≤ 4095
  · exact ⟨_, (if_pos ha).trans (if_neg (by simp only [Config.maxByte]; omega))⟩
  · exact ⟨_, if_neg ha⟩

/-- Settles O45: in range the write is one of memory's, and it is refused out of range or while Running. -/
theorem hostWriteMemWritesOneByte : Obligations.HostWriteMemWritesOneByte := by
  refine fun s a v hwf => ⟨fun ha hv hs => ?_, fun h => ?_⟩
  · refine ⟨_, (hostWriteMem_of_inRange ha hv).trans (unlessRunning_of_notRunning hs), ?_, fun b hb => ?_,
      wf_write hwf (Nat.lt_succ_of_le ha), rfl, fun _ => rfl, ⟨rfl, fun _ => rfl⟩, rfl, rfl⟩
    · rw [byteAt_write hwf, if_pos rfl, toNat_ofNat_of_lt (by omega)]
    · rw [byteAt_write hwf, if_neg hb]
  · by_cases hrange : 4095 < a ∨ 255 < v
    · exact hostWriteMem_of_outOfRange hrange
    · exact ⟨_, (hostWriteMem_of_inRange (by omega) (by omega)).trans (unlessRunning_of_running (by tauto))⟩

theorem hostWriteReg_of_inRange {i v : Nat} (hi : i ≤ 15) (hv : v ≤ 255) :
    hostWriteReg i v s = unlessRunning s (s.setReg (BitVec.ofNat 4 i) (BitVec.ofNat 8 v)) :=
  (if_pos (Nat.lt_succ_of_le hi)).trans (if_pos hv)

theorem hostWriteReg_of_outOfRange {i v : Nat} (h : 15 < i ∨ 255 < v) : ∃ r, hostWriteReg i v s = .refused r := by
  by_cases hi : i < 16
  · exact ⟨_, (if_pos hi).trans (if_neg (by simp only [Config.maxByte]; omega))⟩
  · exact ⟨_, if_neg hi⟩

/-- A register index names the register of its number. -/
theorem eq_ofNat_iff_toNat_eq {r : RegIndex} {i : Nat} (hi : i ≤ 15) : r = BitVec.ofNat 4 i ↔ r.toNat = i := by
  rw [← BitVec.toNat_inj, toNat_ofNat_of_lt (by omega)]

/-- Settles O46: in range the write is one of the registers', and it is refused out of range or while Running. -/
theorem hostWriteRegWritesOneRegister : Obligations.HostWriteRegWritesOneRegister := by
  refine fun s i v => ⟨fun hi hv hs => ?_, fun h => ?_⟩
  · refine ⟨_, (hostWriteReg_of_inRange hi hv).trans (unlessRunning_of_notRunning hs), fun r hr => ?_, fun r hr => ?_,
      sameButRegs_setReg s _ _⟩
    · rw [reg_setReg, if_pos ((eq_ofNat_iff_toNat_eq hi).mpr hr), toNat_ofNat_of_lt (by omega)]
    · rw [reg_setReg, if_neg fun h => hr ((eq_ofNat_iff_toNat_eq hi).mp h)]
  · by_cases hrange : 15 < i ∨ 255 < v
    · exact hostWriteReg_of_outOfRange hrange
    · exact ⟨_, (hostWriteReg_of_inRange (by omega) (by omega)).trans (unlessRunning_of_running (by tauto))⟩

theorem hostWritePC_of_inRange {v : Nat} (hv : v ≤ 65535) :
    hostWritePC v s = unlessRunning s (s.setPc (BitVec.ofNat 16 v)) := if_pos hv

theorem hostWritePC_of_outOfRange {v : Nat} (hv : 65535 < v) : hostWritePC v s = .refused (.hostValueOutOfRange v) :=
  if_neg (not_le.mpr hv)

/-- Settles O47: in range the write is one of pc, which the first step of the Run that follows finds as it was written. -/
theorem hostWritePCAcceptsEverySixteenBitValue : Obligations.HostWritePCAcceptsEverySixteenBitValue := by
  refine fun s v => ⟨fun hv hs => ?_, fun h => ?_⟩
  · have hpc : (BitVec.ofNat 16 v).toNat = v := toNat_ofNat_of_lt (by omega)
    refine ⟨_, (hostWritePC_of_inRange hv).trans (unlessRunning_of_notRunning hs), hpc, sameButPc_setPc s _,
      fun hout => ⟨_, step_of_outOfBounds rfl (hout.trans_eq hpc.symm), faultedFor_raise _ _ _ _⟩⟩
  · by_cases hv : 65535 < v
    · exact ⟨_, hostWritePC_of_outOfRange hv⟩
    · exact ⟨_, (hostWritePC_of_inRange (by omega)).trans (unlessRunning_of_running (by tauto))⟩

theorem hostLoadImage_of_wellFormed {img : Image} (h : img.wellFormed = true) (hs : s.status ≠ .running) :
    hostLoadImage img s = .next { s with mem := storeLines s.mem img.base img.lines } :=
  (if_pos h).trans (unlessRunning_of_notRunning hs)

/-- The `k`-th line stored reads back as its word, high byte first: later lines stand behind it (R204). -/
theorem byteAt_storeLines_line {m : Memory} {a k : Nat} {l : Line} {ls : List Line} (h : Memory.wf m = true)
    (ha : a + 2 * ls.length ≤ Config.memSize) (hk : ls[k]? = some l) :
    Memory.byteAt (storeLines m a ls) (a + 2 * k) = highByte l.encoded ∧
    Memory.byteAt (storeLines m a ls) (a + 2 * k + 1) = lowByte l.encoded := by
  induction ls generalizing m a k with
  | nil => cases hk
  | cons l' ls ih =>
    rw [List.length_cons] at ha
    have hwf : Memory.wf (storeWord m a l'.encoded) = true := wf_storeWord h (by omega)
    have hfit : a + 2 + 2 * ls.length ≤ Config.memSize := by omega
    rw [storeLines]
    cases k with
    | zero =>
      cases hk
      rw [byteAt_storeLines_outside hwf hfit (by omega), byteAt_storeLines_outside hwf hfit (by omega),
        byteAt_storeWord h (by omega), byteAt_storeWord h (by omega), if_neg (by omega), if_pos (by omega), if_pos rfl]
      exact ⟨rfl, rfl⟩
    | succ k =>
      have hrest := ih hwf hfit hk
      rwa [show a + 2 * (k + 1) = a + 2 + 2 * k by omega]

theorem image_fits_of_wellFormed {img : Image} (h : img.wellFormed = true) :
    img.base + 2 * img.lines.length ≤ Config.memSize := of_decide_eq_true h

/-- Settles O48: the lines are stored into the empty memory that Initialize leaves. -/
theorem imageWordsStandDenselyFromTheBase : Obligations.ImageWordsStandDenselyFromTheBase := by
  intro img s h
  have hfit := image_fits_of_wellFormed h
  have hempty : Memory.wf [] = true := rfl
  exact ⟨_, hostLoadImage_of_wellFormed h nofun, fun k l hk => byteAt_storeLines_line hempty hfit hk,
    fun a ha => byteAt_storeLines_outside hempty hfit ha, wf_storeLines hempty hfit⟩

/-- The boot sequence with an image that lies inside memory: its writes and its lines meet no refusal. -/
theorem boot_of_wellFormed {img : Image} (h : img.wellFormed = true) (s : State) : boot img s =
    .next (startRun (State.setPc { hostInitialize s with mem := storeLines [] img.base img.lines }
      (BitVec.ofNat 16 img.base))) := by
  have hfit := image_fits_of_wellFormed h
  have hload := hostLoadImage_of_wellFormed (s := hostInitialize s) h nofun
  have hpc : img.base ≤ 65535 := by simp only [Config.memSize] at hfit; omega
  simp only [boot, hload, hostWritePC_of_inRange hpc, hostInitialize_mem]
  rw [unlessRunning_of_notRunning]
  nofun

/-- Settles O49: pc is written to the base, where the image's first line stands. -/
theorem bootStartsAtTheFirstWordOfTheImage : Obligations.BootStartsAtTheFirstWordOfTheImage := by
  intro base l ls s h
  have hfit : base + 2 * (ls.length + 1) ≤ 4096 := image_fits_of_wellFormed h
  have hpc : (BitVec.ofNat 16 base).toNat = base := toNat_ofNat_of_lt (by omega)
  obtain ⟨hhi, hlo⟩ := byteAt_storeLines_line (m := []) (ls := l :: ls) (k := 0) rfl hfit rfl
  exact ⟨_, boot_of_wellFormed h s, rfl, hpc,
    fetchesWord_of_sameMemory hpc (fun _ => rfl) (by omega) hhi hlo, rfl, reg_hostInitialize s⟩

end Sys2Proof.Machine
end
